-- ==== Sys2Proof/Word.lean ====
section
/-! DEFINITION. The two word types of the block: a register byte and a command or response word. -/

namespace Sys2Proof

/-- A remote register byte, a remote register address, `bits` and `mask` are 8 bits (R4, R16, R19). Bit 0 is the least
significant bit (R38). -/
abbrev Byte := BitVec 8

/-- A command word and a response word are 32 bits, bit 31 most significant, passed whole over their ports (R5, R39, R60,
R67). -/
abbrev Word := BitVec 32

end Sys2Proof
end

