-- ==== Sys2Proof/Syntax.lean ====
section
/-! DEFINITION. The fourteen commands of spec/opcode_table.json, one constructor per row (R65), with their operands (R61 to
R64), and the five fields the converters and decoders know (R55). -/

namespace Sys2Proof

/-- The five fields of R55. A CONV or DEC command names one by its func code. -/
inductive Field where
  /-- DC-DC voltage code, func 0 -/
  | dcdc
  /-- LDO3 voltage code, func 1 -/
  | ldo3
  /-- LDO2 voltage code, func 2 -/
  | ldo2
  /-- charge target voltage code, func 3 -/
  | chgv
  /-- charge current code, func 4 -/
  | chgi
  deriving DecidableEq, Repr

/-- A command. A quantity is an integer, as the converter rules have it (R62, R81), and `WellFormed.lean` says which integers
a command word can carry. Register addresses, register bytes, `bits` and `mask` are exactly 8 bits (R61, R63, R64). -/
inductive Instr where
  /-- NAME reg (R79) -/
  | name (reg : Byte)
  /-- CONV.DCDC val (R89) -/
  | convDcdc (val : Int)
  /-- CONV.LDO3 val (R90) -/
  | convLdo3 (val : Int)
  /-- CONV.LDO2 val (R91) -/
  | convLdo2 (val : Int)
  /-- CONV.CHGV val (R92) -/
  | convChgv (val : Int)
  /-- CONV.CHGI val (R93) -/
  | convChgi (val : Int)
  /-- DEC.DCDC byte (R98) -/
  | decDcdc (byte : Byte)
  /-- DEC.LDO3 byte (R99) -/
  | decLdo3 (byte : Byte)
  /-- DEC.LDO2 byte (R100) -/
  | decLdo2 (byte : Byte)
  /-- DEC.CHGV byte (R101) -/
  | decChgv (byte : Byte)
  /-- DEC.CHGI byte (R102) -/
  | decChgi (byte : Byte)
  /-- SETBITS reg, bits, mask: SetBits with its mask given (R108) -/
  | setbits (reg bits mask : Byte)
  /-- SETBITS.D reg, bits: SetBits with its mask omitted (R109) -/
  | setbitsD (reg bits : Byte)
  /-- CLRBITS reg, bits: ClearBits (R110) -/
  | clrbits (reg bits : Byte)
  deriving DecidableEq, Repr

end Sys2Proof
end

