-- ==== Sys2Proof/Decode.lean ====
section
/-! DEFINITION. The decoder of command words, by the opcode map of R65 and the procedure of R71, and the encoder, by the
formats N, C, D and B of R60. -/

namespace Sys2Proof

/-- `w[23:16]`, the remote register address of formats N and B (R61, R64). -/
def wordReg (w : Word) : Byte := w.extractLsb' 16 8

/-- `w[15:8]`, the mask of format B (R64). -/
def wordMask (w : Word) : Byte := w.extractLsb' 8 8

/-- `w[7:0]`, `bits` of format B (R64) and `byte` of format D (R63). -/
def wordByte (w : Word) : Byte := w.extractLsb' 0 8

/-- `sext_16(w[15:0])`, the quantity of format C (R62). -/
def wordVal (w : Word) : Int := (w.extractLsb' 0 16).toInt

/-- A row of the opcode map: a word selects it when `w & care = value` (R65). -/
structure Row where
  value : Word
  care : Word
  build : Word → Instr

/-- `w & mask == match` of R65. -/
def Row.fits (r : Row) (w : Word) : Bool := w &&& r.care == r.value

/-- The fourteen rows of R65, in the table's order. -/
def rows : List Row :=
  [⟨0x10000000#32, 0xFF00FFFF#32, fun w => .name (wordReg w)⟩,
   ⟨0x20000000#32, 0xFFFF0000#32, fun w => .convDcdc (wordVal w)⟩,
   ⟨0x21000000#32, 0xFFFF0000#32, fun w => .convLdo3 (wordVal w)⟩,
   ⟨0x22000000#32, 0xFFFF0000#32, fun w => .convLdo2 (wordVal w)⟩,
   ⟨0x23000000#32, 0xFFFF0000#32, fun w => .convChgv (wordVal w)⟩,
   ⟨0x24000000#32, 0xFFFF0000#32, fun w => .convChgi (wordVal w)⟩,
   ⟨0x30000000#32, 0xFFFFFF00#32, fun w => .decDcdc (wordByte w)⟩] ++
  [⟨0x31000000#32, 0xFFFFFF00#32, fun w => .decLdo3 (wordByte w)⟩,
   ⟨0x32000000#32, 0xFFFFFF00#32, fun w => .decLdo2 (wordByte w)⟩,
   ⟨0x33000000#32, 0xFFFFFF00#32, fun w => .decChgv (wordByte w)⟩,
   ⟨0x34000000#32, 0xFFFFFF00#32, fun w => .decChgi (wordByte w)⟩,
   ⟨0x41000000#32, 0xFF000000#32, fun w => .setbits (wordReg w) (wordByte w) (wordMask w)⟩,
   ⟨0x40000000#32, 0xFF00FF00#32, fun w => .setbitsD (wordReg w) (wordByte w)⟩,
   ⟨0x50000000#32, 0xFF00FF00#32, fun w => .clrbits (wordReg w) (wordByte w)⟩]

/-- Why a word is no command: it matches no row (R66, R71). -/
inductive Illegal where
  /-- R66: the answer to such a word is status IllegalCommand (R130) -/
  | illegalCommand
  deriving DecidableEq, Repr

/-- "Find the row of rule R65 whose mask and match fit; if none, IllegalCommand" (R71). Total, and reads no state. -/
def decode (w : Word) : Except Illegal Instr :=
  match rows.find? (fun r => r.fits w) with
  | some r => .ok (r.build w)
  | none => .error .illegalCommand

/-- The `val` field of a quantity: 16 bits, two's complement (R62). -/
def valField (v : Int) : BitVec 16 := BitVec.ofInt 16 v

/-- A field of a 32-bit word: `x` with its lowest bit at bit `lsb`, every other bit zero (R60, R67). -/
def fieldAt {n : Nat} (x : BitVec n) (lsb : Nat) : Word := x.setWidth 32 <<< lsb

/-- Format N (R60): op at 31:28, reg at 23:16, the rest zero. -/
def formatN (op : BitVec 4) (reg : Byte) : Word := fieldAt op 28 ||| fieldAt reg 16

/-- Format C (R60): op at 31:28, func at 27:24, val at 15:0, the rest zero. -/
def formatC (op func : BitVec 4) (val : BitVec 16) : Word := fieldAt op 28 ||| fieldAt func 24 ||| fieldAt val 0

/-- Format D (R60): op at 31:28, func at 27:24, byte at 7:0, the rest zero. -/
def formatD (op func : BitVec 4) (byte : Byte) : Word := fieldAt op 28 ||| fieldAt func 24 ||| fieldAt byte 0

/-- Format B (R60): op at 31:28, ME at 24, reg at 23:16, mask at 15:8, bits at 7:0, the rest zero. -/
def formatB (op : BitVec 4) (me : BitVec 1) (reg mask bits : Byte) : Word :=
  fieldAt op 28 ||| fieldAt me 24 ||| fieldAt reg 16 ||| fieldAt mask 8 ||| fieldAt bits 0

/-- The command word of a command: its format of R60 with the op and func of R65. -/
def encode : Instr → Word
  | .name reg => formatN 0x1#4 reg
  | .convDcdc v => formatC 0x2#4 0#4 (valField v)
  | .convLdo3 v => formatC 0x2#4 1#4 (valField v)
  | .convLdo2 v => formatC 0x2#4 2#4 (valField v)
  | .convChgv v => formatC 0x2#4 3#4 (valField v)
  | .convChgi v => formatC 0x2#4 4#4 (valField v)
  | .decDcdc b => formatD 0x3#4 0#4 b
  | .decLdo3 b => formatD 0x3#4 1#4 b
  | .decLdo2 b => formatD 0x3#4 2#4 b
  | .decChgv b => formatD 0x3#4 3#4 b
  | .decChgi b => formatD 0x3#4 4#4 b
  | .setbits reg bits mask => formatB 0x4#4 1#1 reg mask bits
  | .setbitsD reg bits => formatB 0x4#4 0#1 reg 0#8 bits
  | .clrbits reg bits => formatB 0x5#4 0#1 reg 0#8 bits

/-- The command word that the opcode table's numbering gives: the low `nbits` bits of `w`, every higher bit zero. A command
is one 32-bit word passed whole (R39, R60), so bit i of the table is bit i of the word. -/
def tableWord (nbits w : Nat) : Word := BitVec.ofNat 32 (w % 2 ^ nbits)

/-- The command the decoder reads from a word numbered as spec/opcode_table.json numbers it. -/
def decodeTableWord (nbits w : Nat) : Option Instr :=
  match decode (tableWord nbits w) with
  | .ok i => some i
  | .error _ => none

end Sys2Proof
end

