-- ==== Sys2Proof/Config.lean ====
section
/-! DEFINITION. What is fixed for a block and left open by the spec (R6): the device address, the register catalogue, the
type of a transport error, the type of a name, and the bytes the device holds before anything writes them. The open values
are constants with no body: no proof can see what they are. -/

namespace Sys2Proof.Config

/-- A type the spec leaves open (R6), as tokens: its values are the tokens that `admits` lets in, and token 0, so that it has
one. With `admits` a constant without a body nothing says how many values there are; every countable type that has a value is
one of these. The block never looks into a token. -/
abbrev OpenType (admits : Nat → Bool) := { n : Nat // n = 0 ∨ admits n = true }

/-- Which tokens are values of TERR: open (R6, D15). -/
opaque terrAdmits : Nat → Bool

/-- TERR (R6, D15): the open type of transport errors. Log entry 6. -/
abbrev TErr := OpenType terrAdmits

/-- Which tokens are values of NAME_T: open (R6). -/
opaque nameAdmits : Nat → Bool

/-- NAME_T (R6): the open type of human-readable names. Its "absent" result is `none` of `Option RegName`. Log entry 7. -/
abbrev RegName := OpenType nameAdmits

/-- DEV_ADDR (R6, R35, D23): the one device's 7-bit address, fixed for the life of the block, with no value in the spec. -/
opaque devAddr : BitVec 7

/-- The read-only or read-write classification of a register (R17). No command looks at it (R80, R123, R141). -/
inductive Access where
  | readOnly
  | readWrite
  deriving DecidableEq, Repr

/-- What a bitfield means: a boolean, a range of numbers, or an enumeration (R18). -/
inductive FieldKind where
  | flag
  | numeric
  /-- an enumeration, with its legal values (R2, R73): the codes of R53 that stand for something -/
  | enumerated (legal : List Nat)
  deriving DecidableEq, Repr

/-- A bitfield of the catalogue: `(field_name, mask, shift or none, kind)` (R18, R78). `sharesWith` names the fields of the
same register that the catalogue documents as an alternate grouping of the same bits (R20). -/
structure Bitfield where
  fieldName : RegName
  mask : Byte
  shift : Option Nat
  kind : FieldKind
  sharesWith : List RegName
  deriving DecidableEq, Repr

/-- A register's descriptor `(name, class, fields)` (R17, R78). -/
structure Descriptor where
  name : RegName
  access : Access
  fields : List Bitfield
  deriving DecidableEq, Repr

/-- REGMAP as it comes from outside (R6, R78, D24): any partial function from an address to a descriptor. The table the
block looks up is `Machine.regmap`, which keeps the entries that satisfy R78. -/
opaque catalogue : Byte → Option Descriptor

/-- The byte the device holds at an address that neither the block nor any other actor has written: unknown (R25, R151, N17).
Only an answer with storage semantics reads it. Log entry 4. -/
opaque powerUp : Byte → Byte

end Sys2Proof.Config
end

