-- ==== Sys2Proof/Machine/State.lean ====
section
/-! DEFINITION. The state of the block, of the remote registers it reaches and of its three ports (10_state.md, 20_memory.md,
D2), and the reasons a step can stop. -/

namespace Sys2Proof.Machine

open Sys2Proof.Config (TErr RegName)

/-- PHASE (R12). -/
inductive Phase where
  /-- no command in progress, so a command can be accepted -/
  | idle
  /-- a bit-update command is accepted and its read transaction has not completed -/
  | read
  /-- the read returned Ok, CUR is valid, and the write transaction has not completed -/
  | write
  deriving DecidableEq, Repr

/-- Which bit-update command is accepted: the "accepted command" half of the pair (accepted command, PHASE) of R13, which
selects the compute function f of R107. DEDUCED, log entry 1. -/
inductive UpdateOp where
  /-- SETBITS -/
  | set
  /-- SETBITS.D -/
  | setDefault
  /-- CLRBITS -/
  | clear
  deriving DecidableEq, Repr

/-- What a transaction does to the device besides storing a written byte (R44): the bytes it leaves at remote addresses, in
order. -/
abbrev Effects := List (Byte × Byte)

/-- What the collaborator answers to a read at one step of the block (R31, R34, R43), and the effect of the read on the device
(R44): an input of the machine. -/
inductive ReadAnswer where
  /-- the bytes answered: `Ok(b)` is `bytes [b]`, any byte; another number of bytes breaks the contract (R34) -/
  | bytes (bs : List Byte) (effects : Effects)
  /-- `Ok` with the byte the device holds: the storage semantics that R43 admits and STORAGE_REGISTER asks for (R44) -/
  | held (effects : Effects)
  /-- `Err(e)` -/
  | err (e : TErr) (effects : Effects)
  /-- no answer at this step: the request stays out (R164) -/
  | wait
  deriving DecidableEq, Repr

/-- What the collaborator answers to a write at one step of the block (R32, R34), and what the device then holds (R44, R120): an
input of the machine. `took` says whether the device took the byte. -/
inductive WriteAnswer where
  /-- `Ok`. Whether REG then holds the byte is the device's matter (R44, R48) -/
  | ok (took : Bool) (effects : Effects)
  /-- `Err(e)`: the device holds the old byte or the attempted one (R120, D31). WRITE_FAIL_NO_EFFECT is `took = false` -/
  | err (e : TErr) (took : Bool)
  /-- no answer at this step: the request stays out (R164) -/
  | wait
  deriving DecidableEq, Repr

/-- How a read transaction ended. -/
inductive ReadResult where
  | ok (b : Byte)
  | err (e : TErr)
  /-- a reset came before the answer (R152) -/
  | abandoned
  deriving DecidableEq, Repr

/-- How a write transaction ended. -/
inductive WriteResult where
  | ok
  | err (e : TErr)
  /-- a reset came before the answer (R152) -/
  | abandoned
  deriving DecidableEq, Repr

/-- A transaction on the register-access port: the request as the collaborator sees it (R30 to R32) and how it ended. -/
inductive Transaction where
  | readBytes (address : Byte) (length : Nat) (result : ReadResult)
  | writeBytes (address : Byte) (bytes : List Byte) (result : WriteResult)
  deriving DecidableEq, Repr

/-- The side-band values of a response (R67). -/
inductive SideBand where
  | none
  /-- `rsp_name`: the entry's name, or the absent value -/
  | name (n : Option RegName)
  /-- `rsp_terr`: the collaborator's failure value, unchanged -/
  | terr (e : TErr)
  deriving DecidableEq, Repr

/-- A response: the 32-bit word and its side-band (R67). -/
structure Response where
  word : Word
  side : SideBand
  deriving DecidableEq, Repr

/-- Who moves next: the plain data that settles the interleaving of R49 and R133. -/
inductive Turn where
  /-- the block takes one step -/
  | block
  /-- another actor, another instance or the device itself leaves byte `b` at remote address `a` (R49, R145) -/
  | other (a b : Byte)
  /-- the block is reset; `took` says whether the device took a write whose answer had not come (R152) -/
  | reset (took : Bool)
  deriving DecidableEq, Repr

/-- The remote registers (R16, R36): pairs of address and byte, addresses strictly rising and below 0x100. An address that is
not listed has no known byte: nothing has written it (R25, R151). -/
abbrev Memory := List Host.Cell

/-- The machine's state. -/
structure State where
  /-- REG, 8 bits (R11): the remote register address -/
  reg : Byte
  /-- BITS, 8 bits (R11) -/
  bits : Byte
  /-- MASK, 8 bits (R11): the effective mask -/
  mask : Byte
  /-- ME, 1 bit (R11): the mask was given -/
  me : Bool
  /-- FUNC, 4 bits (R11): which field -/
  func : BitVec 4
  /-- VAL, a signed integer (R11): the physical quantity -/
  val : Int
  /-- CUR, 8 bits (R11, R26): the byte read -/
  cur : Byte
  /-- PHASE (R12) -/
  phase : Phase
  /-- the accepted bit-update command (R13, R107). DEDUCED, log entry 1 -/
  op : UpdateOp
  /-- a transaction has been requested and not answered (R31, R32, R47). DEDUCED, log entry 2 -/
  outstanding : Bool
  /-- the remote register bytes (R16): state of the device, not of the block -/
  mem : Memory
  /-- command port: the words the requester presents, in order (R13, R60) -/
  commands : List Word
  /-- response port: the responses sent, oldest first (R67) -/
  responses : List Response
  /-- register-access port: the transactions made, oldest first (R30) -/
  trace : List Transaction
  /-- input: what each step of the block that has a read out finds answered, in order (R43, R34). None left: no answer ever comes
  (R164) -/
  readAnswers : List ReadAnswer
  /-- input: what each step of the block that has a write out finds answered, in order (R34). None left: no answer ever comes
  (R164) -/
  writeAnswers : List WriteAnswer
  /-- input: who moves next (R49). None left: the block moves -/
  turns : List Turn
  deriving DecidableEq, Repr

/-- The reasons a step can stop with a fault. The block's three errors are responses, not faults (R136). -/
inductive Fault where
  /-- Raised by the read transaction when the collaborator answers a number of bytes other than one: "outside the
  collaborator's contract", to be given no meaning and not to be taken as success (R34). Safe: the machine stops where the
  spec gives no effect. -/
  | readLength
  deriving DecidableEq, Repr

/-- The reasons a step can be refused. -/
inductive Refusal where
  /-- Raised by `exec` for an instruction with no meaning yet. Safe: the machine stops. No arm raises it. -/
  | notModelled (mnemonic : String)
  deriving DecidableEq, Repr

/-- The state right after reset: PHASE IDLE (R27, R148), nothing presented, answered or sent, no remote byte known (R151).
The latches are unspecified (R149); each holds zero here. DESIGN CHOICE, log entry 3. -/
def State.reset : State where
  reg := 0#8
  bits := 0#8
  mask := 0#8
  me := false
  func := 0#4
  val := 0
  cur := 0#8
  phase := .idle
  op := .set
  outstanding := false
  mem := []
  commands := []
  responses := []
  trace := []
  readAnswers := []
  writeAnswers := []
  turns := []

end Sys2Proof.Machine
end

