-- ==== Sys2Proof/Machine/Flags.lean ====
section
/-! DEFINITION. The block has no flag, condition code or predicate (R14): "the outcome of a command is carried only by its
response". This file holds what stands in their place: the status codes (R127), the layout of the response word and the
response of every outcome (R67). -/

namespace Sys2Proof.Machine

open Sys2Proof.Config (TErr RegName)

/-- The four outcomes of a command (R127). -/
inductive Status where
  | ok
  | invalidArgument
  | transportError
  | illegalCommand
  deriving DecidableEq, Repr

/-- Status codes, `r[31:30]` (R67, R127). -/
def Status.code : Status → BitVec 2
  | .ok => 0#2
  | .invalidArgument => 1#2
  | .transportError => 2#2
  | .illegalCommand => 3#2

/-- The response word: status at 31:30, aux at 29:26, ten zeros, data at 15:0 (R67). -/
def responseWord (st : Status) (aux : BitVec 4) (data : BitVec 16) : Word :=
  fieldAt st.code 30 ||| fieldAt aux 26 ||| fieldAt data 0

/-- `r[31:30]` (R67). -/
def Response.statusBits (r : Response) : BitVec 2 := r.word.extractLsb' 30 2

/-- `r[29:26]` (R67). -/
def Response.aux (r : Response) : BitVec 4 := r.word.extractLsb' 26 4

/-- `r[25:16]`, always zero (R67). -/
def Response.reserved (r : Response) : BitVec 10 := r.word.extractLsb' 16 10

/-- `r[15:0]` (R67). -/
def Response.data (r : Response) : BitVec 16 := r.word.extractLsb' 0 16

/-- An OK response (R67): aux 0. -/
def okResponse (data : BitVec 16) (side : SideBand) : Response :=
  ⟨responseWord .ok 0#4 data, side⟩

/-- The three error kinds with what each records (R126, R127). -/
inductive Error where
  /-- a quantity outside a converter's domain: the quantity as given and the converter's func code (R84, R128) -/
  | invalidArgument (value : BitVec 16) (func : BitVec 4)
  /-- a transaction answered `Err(e)` (R129) -/
  | transportError (e : TErr)
  /-- a word that is no command (R130) -/
  | illegalCommand
  deriving DecidableEq, Repr

/-- The response of an error: its status, its payload and its side-band (R67, R127). -/
def Error.response : Error → Response
  | .invalidArgument value func => ⟨responseWord .invalidArgument func value, .none⟩
  | .transportError e => ⟨responseWord .transportError 0#4 0#16, .terr e⟩
  | .illegalCommand => ⟨responseWord .illegalCommand 0#4 0#16, .none⟩

end Sys2Proof.Machine
end

