-- ==== Sys2Proof/Machine/Operands.lean ====
section
/-! DEFINITION. What a command computes from its operands: the fields and their masks and shifts (R53, R55), the constant
table of the converters (R95), encoding and decoding a quantity (R57, R58, R96, R97), and the byte a bit-update writes (R108
to R110). -/

namespace Sys2Proof.Machine

open Sys2Proof (Byte Field)

/-- The func code of a field (R55). -/
def fieldFunc : Field → BitVec 4
  | .dcdc => 0#4
  | .ldo3 => 1#4
  | .ldo2 => 2#4
  | .chgv => 3#4
  | .chgi => 4#4

/-- The number of bits of a field (R55). -/
def fieldWidth : Field → Nat
  | .dcdc => 7
  | .ldo3 => 4
  | .ldo2 => 4
  | .chgv => 2
  | .chgi => 4

/-- The lowest bit of a field (R55). -/
def fieldShift : Field → Nat
  | .dcdc => 0
  | .ldo3 => 0
  | .ldo2 => 4
  | .chgv => 5
  | .chgi => 0

/-- A run of `width` ones starting at bit `shift`: `((1 << width) - 1) << shift` (R53). -/
def runMask (width shift : Nat) : Byte := BitVec.ofNat 8 ((2 ^ width - 1) * 2 ^ shift)

/-- The mask of a field (R53, R55). -/
def fieldMask (f : Field) : Byte := runMask (fieldWidth f) (fieldShift f)

/-- `place(f, c) = (c << shift_f) & mask_f` (R53). -/
def place (f : Field) (c : Nat) : Byte := (BitVec.ofNat 8 c <<< fieldShift f) &&& fieldMask f

/-- `index(f, b) = (b AND mask_f) >> shift_f` (R53, R96). -/
def index (f : Field) (b : Byte) : Nat := ((b &&& fieldMask f) >>> fieldShift f).toNat

/-- The constants of a linear converter (R95). -/
structure Linear where
  lo : Int
  hi : Int
  /-- the domain is [lo, hi] and not [lo, hi) -/
  hiClosed : Bool
  offset : Int
  step : Int
  deriving DecidableEq, Repr

/-- The constant table (R95): the linear fields. The charge target is enumerated and has no such row. -/
def linearOf : Field → Option Linear
  | .dcdc => some ⟨700, 3900, false, 700, 25⟩
  | .ldo3 => some ⟨1800, 3400, false, 1800, 100⟩
  | .ldo2 => some ⟨1800, 3400, false, 1800, 100⟩
  | .chgv => none
  | .chgi => some ⟨100, 1320, true, 100, 80⟩

/-- The domain of a linear converter (R82, R95). -/
def Linear.inDomain (l : Linear) (v : Int) : Bool :=
  decide (l.lo ≤ v) && if l.hiClosed then decide (v ≤ l.hi) else decide (v < l.hi)

/-- `floor((value - offset) / step)` (R57, R83, R88). -/
def Linear.code (l : Linear) (v : Int) : Nat := ((v - l.offset) / l.step).toNat

/-- The code of a charge target: only the exact listed values (R58, R92). -/
def chgvCode (v : Int) : Option Nat :=
  if v = 4100 then some 0
  else if v = 4150 then some 1
  else if v = 4200 then some 2
  else if v = 4360 then some 3
  else none

/-- The charge target a code stands for (R97, R101). -/
def chgvQuantity (c : Nat) : Int :=
  if c = 0 then 4100 else if c = 1 then 4150 else if c = 2 then 4200 else 4360

/-- The converter of a field: the positioned raw value (R56), or nothing outside the domain (R81 to R86). -/
def encodeQuantity (f : Field) (v : Int) : Option Byte :=
  match linearOf f with
  | some l => if l.inDomain v then some (place f (l.code v)) else none
  | none => (chgvCode v).map (place f)

/-- The decoder of a field: the quantity the field's code stands for, `offset + step * code` or the table entry (R96, R97). -/
def decodeQuantity (f : Field) (b : Byte) : Int :=
  match linearOf f with
  | some l => l.offset + l.step * (index f b : Int)
  | none => chgvQuantity (index f b)

/-- `f(cur) = (cur AND (0xFF - MASK)) OR BITS`, of SETBITS (R108) and SETBITS.D (R109). The formula is applied as written: a
bit of BITS outside MASK is set all the same (R113). -/
def setByte (cur mask bits : Byte) : Byte := (cur &&& ~~~mask) ||| bits

/-- `f(cur) = cur AND (0xFF - BITS)`, of CLRBITS (R110). -/
def clearByte (cur bits : Byte) : Byte := cur &&& ~~~bits

/-- The byte SETBITS writes, from the latches (R108). -/
def setbitsNew (s : State) : Byte := setByte s.cur s.mask s.bits

/-- The byte SETBITS.D writes, from the latches (R109). -/
def setbitsDNew (s : State) : Byte := setByte s.cur s.mask s.bits

/-- The byte CLRBITS writes, from the latches (R110). -/
def clrbitsNew (s : State) : Byte := clearByte s.cur s.bits

/-- The byte the accepted bit-update command writes (R107): its f applied to CUR. -/
def newByte (s : State) : Byte :=
  match s.op with
  | .set => setbitsNew s
  | .setDefault => setbitsDNew s
  | .clear => clrbitsNew s

end Sys2Proof.Machine
end

