-- ==== Sys2Proof/Machine/Ops.lean ====
section
/-! DEFINITION. The shared operations: the remote registers, responding and raising an error, the two transactions, the
sequence of a bit-update command, taking a command word, and what the outside world does. -/

namespace Sys2Proof.Machine

open Sys2Proof.Config (TErr)

/-- A step's outcome. -/
abbrev Result := Host.Outcome State Fault Refusal

/-! ### The remote registers -/

/-- The byte held at an address, or nothing where no one has written (R25, R151). -/
def Memory.read : Memory → Byte → Option Byte
  | [], _ => none
  | (k, b) :: m, a => if k = a.toNat then some b else Memory.read m a

/-- One write replaces the whole byte (R42). The list stays in canonical form. -/
def Memory.write : Memory → Byte → Byte → Memory
  | [], a, b => [(a.toNat, b)]
  | (k, c) :: m, a, b =>
    if a.toNat < k then (a.toNat, b) :: (k, c) :: m
    else if a.toNat = k then (k, b) :: m
    else (k, c) :: Memory.write m a b

/-- Several writes, in order. -/
def Memory.writes (m : Memory) (ps : List (Byte × Byte)) : Memory := ps.foldl (fun m p => m.write p.1 p.2) m

/-- The device takes the byte written to an address, or does not (R44, R120, R152). -/
def Memory.takes (m : Memory) (took : Bool) (a b : Byte) : Memory := if took then m.write a b else m

/-- The canonical form: addresses strictly rising, each in 0x00 to 0xFF (R36). Every entry differs from what an unlisted
address reads as, which is no byte at all. -/
abbrev Memory.wf (m : Memory) : Prop :=
  m.Pairwise (fun x y => x.1 < y.1) ∧ ∀ c ∈ m, c.1 < 256

/-- The byte the device holds: the one last written, or the unknown byte it powered up with (R43, N17). -/
def heldByte (m : Memory) (a : Byte) : Byte := (m.read a).getD (Config.powerUp a)

/-! ### Responses and errors -/

/-- `respond` (R67): send one response. -/
def respond (r : Response) (s : State) : State := { s with responses := s.responses ++ [r] }

/-- Raising an error, whichever it is (R136): the response with the error's status and payload is sent and PHASE is set to
IDLE. Nothing is saved and control goes nowhere; going on needs no return (R138). -/
def raise (x : Error) (s : State) : State := { respond x.response s with phase := .idle }

/-! ### The register-access port -/

/-- Every transaction goes to the one device, at DEV_ADDR: no command carries or changes the address (R35). -/
def Transaction.device (_ : Transaction) : BitVec 7 := Config.devAddr

/-- A transaction has ended: it stands in the port's history and none is outstanding (R47). -/
def endTransaction (t : Transaction) (s : State) : State :=
  { s with trace := s.trace ++ [t], outstanding := false }

/-- The read has returned `Ok(b)`: CUR <- b, PHASE <- WRITE (R107, step 2). -/
def readOk (b : Byte) (s : State) : State :=
  { endTransaction (.readBytes s.reg 1 (.ok b)) s with cur := b, phase := .write }

/-- The read has returned `Err(e)`: TransportError, no write (R107, R119). -/
def readErr (e : TErr) (s : State) : State :=
  raise (.transportError e) (endTransaction (.readBytes s.reg 1 (.err e)) s)

/-- `MemRead(REG, 1)` (R31, R107): the request goes out once and the block waits; each answer, and what the read does to the
device, is an input (R43, R44). Without an answer the block stays where it is (R164). -/
def readTransaction (s : State) : Result :=
  match s.readAnswers with
  | [] => .next { s with outstanding := true }
  | .wait :: rest => .next { s with readAnswers := rest, outstanding := true }
  | .bytes [b] fx :: rest => .next (readOk b { s with readAnswers := rest, mem := s.mem.writes fx })
  | .bytes _ _ :: _ => .fault .readLength
  | .held fx :: rest => .next (readOk (heldByte s.mem s.reg) { s with readAnswers := rest, mem := s.mem.writes fx })
  | .err e fx :: rest => .next (readErr e { s with readAnswers := rest, mem := s.mem.writes fx })

/-- The write of `new` has returned `Ok`: OK is sent, PHASE <- IDLE (R107, step 3). What the device then holds comes with the
answer (R44, R48). -/
def writeOk (new : Byte) (took : Bool) (fx : Effects) (s : State) : State :=
  { respond (okResponse 0#16 .none)
      (endTransaction (.writeBytes s.reg [new] .ok) { s with mem := (s.mem.takes took s.reg new).writes fx }) with
    phase := .idle }

/-- The write of `new` has returned `Err(e)`: TransportError, and the device holds the old byte or the attempted one (R107,
R120, D31). -/
def writeErr (new : Byte) (e : TErr) (took : Bool) (s : State) : State :=
  raise (.transportError e)
    (endTransaction (.writeBytes s.reg [new] (.err e)) { s with mem := s.mem.takes took s.reg new })

/-- `MemWrite(REG, 1, new)` (R32, R107). It is made whatever `new` is (R116). Without an answer the block stays where it
is (R164). -/
def writeTransaction (new : Byte) (s : State) : Result :=
  match s.writeAnswers with
  | [] => .next { s with outstanding := true }
  | .wait :: rest => .next { s with writeAnswers := rest, outstanding := true }
  | .ok took fx :: rest => .next (writeOk new took fx { s with writeAnswers := rest })
  | .err e took :: rest => .next (writeErr new e took { s with writeAnswers := rest })

/-! ### The sequence of a bit-update command -/

/-- Step 1 of R107: REG, BITS and the effective MASK are latched and PHASE <- READ. Nothing is checked (R123). -/
def acceptUpdate (op : UpdateOp) (reg bits mask : Byte) (s : State) : State :=
  { s with op := op, reg := reg, bits := bits, mask := mask, phase := .read }

/-- The sequence of R107: accepting the command, then the read transaction, then the write of `new`, each a step of its own.
`accepted` is the state after step 1 and `new` the command's f applied to the byte read. -/
def bitUpdate (accepted : State) (new : Byte) (s : State) : Result :=
  match s.phase with
  | .idle => .next accepted
  | .read => readTransaction s
  | .write => writeTransaction new s

/-- The bit-update command in progress: the accepted command with its operands as latched (R13, R107). -/
def inFlight (s : State) : Instr :=
  match s.op with
  | .set => .setbits s.reg s.bits s.mask
  | .setDefault => .setbitsD s.reg s.bits
  | .clear => .clrbits s.reg s.bits

/-! ### The pure commands -/

/-- A converter (R81 to R86, R89 to R93): VAL and FUNC are latched, and the raw value or InvalidArgument is sent. -/
def convert (f : Field) (v : Int) (s : State) : State :=
  let s' := { s with val := v, func := fieldFunc f }
  match encodeQuantity f s'.val with
  | some raw => respond (okResponse (raw.setWidth 16) .none) s'
  | none => raise (.invalidArgument (valField s'.val) s'.func) s'

/-- A decoder (R96 to R103): BITS and FUNC are latched, and the quantity is sent. -/
def decodeField (f : Field) (b : Byte) (s : State) : State :=
  let s' := { s with bits := b, func := fieldFunc f }
  respond (okResponse (BitVec.ofInt 16 (decodeQuantity f s'.bits)) .none) s'

/-! ### Taking a command word -/

/-- The next command word of the command port, and the state once it is taken (R13). The block has no program counter and
fetches nothing from the remote registers (R51). -/
def takeWord (s : State) : Option (Word × State) :=
  match s.commands with
  | [] => none
  | w :: ws => some (w, { s with commands := ws })

/-- The answer to a word that is no command: no latch loaded, no transaction, PHASE stays IDLE (R66, R130). -/
def illegalWord (s : State) : State := raise .illegalCommand s

/-! ### The outside world -/

/-- Another actor leaves `b` at remote address `a` (R49). -/
def otherActor (a b : Byte) (s : State) : State := { s with mem := s.mem.write a b }

/-- What a reset does to a transaction whose answer has not come (R152): a read is abandoned; a write is abandoned and may or
may not have taken effect. -/
def abandonTransaction (took : Bool) (s : State) : State :=
  match s.outstanding, s.phase with
  | true, .read => endTransaction (.readBytes s.reg 1 .abandoned) s
  | true, .write =>
    endTransaction (.writeBytes s.reg [newByte s] .abandoned)
      { s with mem := s.mem.takes took s.reg (newByte s) }
  | _, _ => s

/-- A reset of the block (R148 to R152): the command in progress is abandoned without a response and PHASE <- IDLE. It issues
no transaction and changes no remote register but by a write already requested. The latches, unspecified after it (R149), keep
what they held: log entry 3. -/
def resetBlock (took : Bool) (s : State) : State :=
  { abandonTransaction took s with phase := .idle, outstanding := false }

end Sys2Proof.Machine
end

