-- ==== Sys2Proof/Machine/BitUpdate.lean ====
section
/-! DEFINITION. The three bit-update commands (R106 to R125). Each is the sequence of R107: run in IDLE it is accepted, and
run again in READ and in WRITE it makes its read and its write, from the latches. -/

namespace Sys2Proof.Machine

/-- SETBITS reg, bits, mask (R108): the effective mask is `mask` and ME is 1 (R64). -/
def execSetbits (reg bits mask : Byte) (s : State) : Result :=
  bitUpdate { acceptUpdate .set reg bits mask s with me := true } (setbitsNew s) s

/-- SETBITS.D reg, bits (R109): the effective mask is a copy of `bits` and ME is 0 (R64, R111). -/
def execSetbitsD (reg bits : Byte) (s : State) : Result :=
  bitUpdate { acceptUpdate .setDefault reg bits bits s with me := false } (setbitsDNew s) s

/-- CLRBITS reg, bits (R110): MASK is a copy of `bits`; ME is not written (R11). -/
def execClrbits (reg bits : Byte) (s : State) : Result :=
  bitUpdate (acceptUpdate .clear reg bits bits s) (clrbitsNew s) s

end Sys2Proof.Machine
end

