-- ==== Sys2Proof/Machine/Converters.lean ====
section
/-! DEFINITION. The five unit converters (R81 to R95). -/

namespace Sys2Proof.Machine

/-- CONV.DCDC val (R89): millivolts in [700, 3900) to a 7-bit code. -/
def execConvDcdc (val : Int) (s : State) : Result := .next (convert .dcdc val s)

/-- CONV.LDO3 val (R90): millivolts in [1800, 3400) to a code in the low nibble. -/
def execConvLdo3 (val : Int) (s : State) : Result := .next (convert .ldo3 val s)

/-- CONV.LDO2 val (R91): the domain of CONV.LDO3, the code in the high nibble. -/
def execConvLdo2 (val : Int) (s : State) : Result := .next (convert .ldo2 val s)

/-- CONV.CHGV val (R92): four listed millivolt targets to a code at bits 6:5. -/
def execConvChgv (val : Int) (s : State) : Result := .next (convert .chgv val s)

/-- CONV.CHGI val (R93): milliamps in [100, 1320] to a code in the low nibble. -/
def execConvChgi (val : Int) (s : State) : Result := .next (convert .chgi val s)

end Sys2Proof.Machine
end

