-- ==== Sys2Proof/Machine/Decoders.lean ====
section
/-! DEFINITION. The five field decoders (R96 to R105). -/

namespace Sys2Proof.Machine

/-- DEC.DCDC byte (R98). -/
def execDecDcdc (byte : Byte) (s : State) : Result := .next (decodeField .dcdc byte s)

/-- DEC.LDO3 byte (R99). -/
def execDecLdo3 (byte : Byte) (s : State) : Result := .next (decodeField .ldo3 byte s)

/-- DEC.LDO2 byte (R100). -/
def execDecLdo2 (byte : Byte) (s : State) : Result := .next (decodeField .ldo2 byte s)

/-- DEC.CHGV byte (R101). -/
def execDecChgv (byte : Byte) (s : State) : Result := .next (decodeField .chgv byte s)

/-- DEC.CHGI byte (R102). -/
def execDecChgi (byte : Byte) (s : State) : Result := .next (decodeField .chgi byte s)

end Sys2Proof.Machine
end

