-- ==== Sys2Proof/Machine/RegisterMap.lean ====
section
/-! DEFINITION. The register map (R73 to R80) and the command that reads it, NAME. -/

namespace Sys2Proof.Machine

open Sys2Proof.Config (Bitfield Descriptor FieldKind)

/-- The mask is the contiguous run of `width` ones at bit `shift`, not empty and inside the byte (R18, R19, R53). -/
def Bitfield.isRun (f : Bitfield) (width shift : Nat) : Bool :=
  decide (1 ≤ width) && decide (width + shift ≤ 8) && f.mask == runMask width shift

/-- A mask in 0x01 to 0xFF that is a contiguous run of ones, with the shift of its lowest bit; a one-bit field may have no
shift, and a flag is a one-bit field without one (R53, R54, R78). -/
def Bitfield.wf (f : Bitfield) : Bool :=
  (List.range 9).any fun width => (List.range 8).any fun shift =>
    Bitfield.isRun f width shift &&
    (f.shift == some shift || (f.shift == none && width == 1)) &&
    (f.kind != .flag || (width == 1 && f.shift == none))

/-- Two fields of one register overlap only where the catalogue says so (R20, R78). -/
def Bitfield.mayStandBeside (f g : Bitfield) : Bool :=
  f.mask &&& g.mask == 0#8 || f.sharesWith.contains g.fieldName || g.sharesWith.contains f.fieldName

/-- What R78 requires of the entries for 0x28 (LDO3 and LDO2 voltage) and 0x12 (LDO3 enable), if there are any. -/
def hasKnownFields (a : Byte) (d : Descriptor) : Bool :=
  (a != 0x28#8 ||
    (d.fields.any (fun f => f.mask == 0x0F#8 && f.shift == some 0) &&
     d.fields.any (fun f => f.mask == 0xF0#8 && f.shift == some 4))) &&
  (a != 0x12#8 || d.fields.any (fun f => f.mask == 0x08#8 && f.kind == .flag))

/-- Every pair of fields of a register may stand together (R20, R78). -/
def fieldsApart : List Bitfield → Bool
  | [] => true
  | f :: fs => fs.all (Bitfield.mayStandBeside f) && fieldsApart fs

/-- What R78 requires of an entry. -/
def Descriptor.wf (a : Byte) (d : Descriptor) : Bool :=
  d.fields.all Bitfield.wf && fieldsApart d.fields && hasKnownFields a d

/-- REGMAP (R78): the entries of the open catalogue that satisfy R78. Every map R78 admits is one of these, and no other is. -/
def regmap (a : Byte) : Option Descriptor := (Config.catalogue a).filter (Descriptor.wf a)

/-- The response of a lookup (R67, R75, R76): data 1 and the name, or data 0 and the absent value. -/
def nameResponse (entry : Option Descriptor) : Response :=
  okResponse (if entry.isSome then 1#16 else 0#16) (.name (entry.map (·.name)))

/-- NAME reg (R79): REG <- reg, and the entry's name is sent. No transaction, no error. -/
def execName (reg : Byte) (s : State) : Result :=
  .next (respond (nameResponse (regmap reg)) { s with reg := reg })

end Sys2Proof.Machine
end

