-- ==== Sys2Proof/Machine/Dispatch.lean ====
section
/-! DEFINITION. exec: one arm per command, each one call of its meaning. -/

namespace Sys2Proof.Machine

def exec (i : Instr) (s : State) : Host.Outcome State Fault Refusal :=
  match i with
  | .name reg => Sys2Proof.Machine.execName reg s
  | .convDcdc val => Sys2Proof.Machine.execConvDcdc val s
  | .convLdo3 val => Sys2Proof.Machine.execConvLdo3 val s
  | .convLdo2 val => Sys2Proof.Machine.execConvLdo2 val s
  | .convChgv val => Sys2Proof.Machine.execConvChgv val s
  | .convChgi val => Sys2Proof.Machine.execConvChgi val s
  | .decDcdc byte => Sys2Proof.Machine.execDecDcdc byte s
  | .decLdo3 byte => Sys2Proof.Machine.execDecLdo3 byte s
  | .decLdo2 byte => Sys2Proof.Machine.execDecLdo2 byte s
  | .decChgv byte => Sys2Proof.Machine.execDecChgv byte s
  | .decChgi byte => Sys2Proof.Machine.execDecChgi byte s
  | .setbits reg bits mask => Sys2Proof.Machine.execSetbits reg bits mask s
  | .setbitsD reg bits => Sys2Proof.Machine.execSetbitsD reg bits s
  | .clrbits reg bits => Sys2Proof.Machine.execClrbits reg bits s

end Sys2Proof.Machine
end

