-- ==== Sys2Proof/Machine/Step.lean ====
section
/-! DEFINITION. One step of the machine: whose turn it is (R49), and the block's own step (R12, R13, D1). -/

namespace Sys2Proof.Machine

/-- One step of the block. In IDLE it takes the next command word, if one is presented, and executes it or answers it as
illegal; in READ and WRITE it goes on with the accepted command (R12, R13, R71, R107). -/
def blockStep (s : State) : Host.Outcome State Fault Refusal :=
  match s.phase with
  | .idle =>
    match takeWord s with
    | none => .next s
    | some (w, s') =>
      match decode w with
      | .ok i => exec i s'
      | .error _ => .next (illegalWord s')
  | .read => exec (inFlight s) s
  | .write => exec (inFlight s) s

/-- One step of the machine: the agent whose turn it is moves (R49). With no turn listed the block moves. -/
def step (s : State) : Host.Outcome State Fault Refusal :=
  match s.turns with
  | [] => blockStep s
  | .block :: ts => blockStep { s with turns := ts }
  | .other a b :: ts => .next (otherActor a b { s with turns := ts })
  | .reset took :: ts => .next (resetBlock took { s with turns := ts })

/-- The state in which the very next step takes the word that the opcode table's numbering gives: the word is presented first
on the command port, the block is in IDLE with nothing outstanding, and the turn is the block's. -/
def State.withFetchWord (s : State) (nbits w : Nat) : State :=
  { s with
    commands := tableWord nbits w :: s.commands
    phase := .idle
    outstanding := false
    turns := if s.turns.isEmpty then [] else .block :: s.turns }

end Sys2Proof.Machine
end

