-- ==== Sys2Proof/Machine/System.lean ====
section
/-! DEFINITION. Several instances of the block on one device (R49, R117, R145). Each obeys its own step; they share the remote
registers and nothing else. -/

namespace Sys2Proof.Machine

/-- Several instances, the remote registers they share, the transactions of all of them in the order in which the port showed
them, each with the instance that made it, and the order in which the instances move. The number of an instance belongs to the
model: the hardware has "no instance identifiers" (R145). -/
structure System where
  blocks : List State
  mem : Memory
  port : List (Nat × Transaction)
  order : List Nat
  deriving DecidableEq, Repr

/-- The transactions a step has added. -/
def newTransactions (before after : State) : List Transaction := after.trace.drop before.trace.length

/-- One step of the system: the instance whose move it is takes one step on the shared remote registers (R145). A move of an
instance that does not exist, or that stops, changes nothing. -/
def System.step (y : System) : System :=
  match y.order with
  | [] => y
  | k :: ks =>
    match y.blocks[k]? with
    | none => { y with order := ks }
    | some s =>
      match Machine.step { s with mem := y.mem } with
      | .next t =>
        { blocks := y.blocks.set k t
          mem := t.mem
          port := y.port ++ (newTransactions s t).map (fun x => (k, x))
          order := ks }
      | .fault _ => { y with order := ks }
      | .refused _ => { y with order := ks }

/-- `n` steps of the system. -/
def System.run : Nat → System → System
  | 0, y => y
  | n + 1, y => System.run n y.step

end Sys2Proof.Machine
end

