-- ==== Sys2Proof/WellFormed.lean ====
section
/-! DEFINITION. Which commands a 32-bit command word can express. -/

namespace Sys2Proof

/-- A quantity that the 16-bit two's-complement `val` field carries: -32768 to 32767 (R62, D4). -/
def fitsVal (v : Int) : Bool :=
  decide (-32768 ≤ v) && decide (v ≤ 32767)

/-- The one thing that can be wrong with a command's operands is a quantity outside the `val` field (R62): every 8-bit
operand is legal for its command (R79, R103, R123). -/
def Instr.wf : Instr → Bool
  | .name _ => true
  | .convDcdc v => fitsVal v
  | .convLdo3 v => fitsVal v
  | .convLdo2 v => fitsVal v
  | .convChgv v => fitsVal v
  | .convChgi v => fitsVal v
  | .decDcdc _ => true
  | .decLdo3 _ => true
  | .decLdo2 _ => true
  | .decChgv _ => true
  | .decChgi _ => true
  | .setbits _ _ _ => true
  | .setbitsD _ _ => true
  | .clrbits _ _ => true

end Sys2Proof
end

