-- ==== Sys2Proof/Safety.lean ====
section
/-! DEFINITION. What claims about the machine are stated in: the named premises of 92_eei_decisions.md, the invariant that
every step keeps, what a requester observes, and the end of a run. -/

namespace Sys2Proof.Machine

/-! ### The named premises -/

/-- EXCLUSIVE_ACCESS(a): in these turns no one else writes remote address `a` (R145). -/
def ExclusiveAccess (a : Byte) (ts : List Turn) : Prop := ∀ b, Turn.other a b ∉ ts

/-- WRITE_FAIL_NO_EFFECT: a write answered `Err` changed no remote byte (R120). -/
def WriteFailNoEffect (ws : List WriteAnswer) : Prop := ∀ e took, WriteAnswer.err e took ∈ ws → took = false

/-- COLLABORATOR_ANSWERS, for the next read and the next write: after some steps without an answer each gets one (R164), the read
with one byte (R34). -/
def CollaboratorAnswers (s : State) : Prop :=
  (∃ k r rest, s.readAnswers = List.replicate k .wait ++ r :: rest ∧ r ≠ .wait ∧ ∀ bs fx, r = .bytes bs fx → bs.length = 1) ∧
  (∃ k w rest, s.writeAnswers = List.replicate k .wait ++ w :: rest ∧ w ≠ .wait)

/-- What the answer to a read says of the device besides the byte. -/
def ReadAnswer.effects : ReadAnswer → Effects
  | .bytes _ fx => fx
  | .held fx => fx
  | .err _ fx => fx
  | .wait => []

/-- What the answer to a write says of the device besides whether it took the byte. -/
def WriteAnswer.effects : WriteAnswer → Effects
  | .ok _ fx => fx
  | .err _ _ => []
  | .wait => []

/-! ### Turns, runs and ends -/

/-- The block moves next. -/
def BlockMoves (s : State) : Prop := s.turns = [] ∨ ∃ ts, s.turns = .block :: ts

/-- The state once the block's turn is taken off the list of turns. -/
def afterTurn (s : State) : State := { s with turns := s.turns.tail }

/-- A run has ended: every presented word is taken and answered and PHASE is IDLE (R165). -/
def RunEnded (s : State) : Prop := s.commands = [] ∧ s.phase = .idle ∧ s.outstanding = false

/-- Words presented and not taken, commands in progress, and responses sent: each accepted word owes one response (R135,
R165). -/
def account (s : State) : Nat :=
  s.commands.length + (if s.phase = .idle then 0 else 1) + s.responses.length

/-! ### The invariant -/

/-- A response as R67 lays it out: the reserved bits are zero; aux and data are zero where the status has no payload; and the
side-band fits the status. -/
def Response.WellFormed (r : Response) : Prop :=
  r.reserved = 0#10 ∧
  (r.statusBits = 0#2 → r.aux = 0#4 ∧ (∀ e, r.side ≠ .terr e) ∧
    (∀ n, r.side = .name (some n) → r.data = 1#16) ∧ (r.side = .name none → r.data = 0#16)) ∧
  (r.statusBits = 1#2 → r.aux.toNat ≤ 4 ∧ r.side = .none) ∧
  (r.statusBits = 2#2 → r.aux = 0#4 ∧ r.data = 0#16 ∧ ∃ e, r.side = .terr e) ∧
  (r.statusBits = 3#2 → r.aux = 0#4 ∧ r.data = 0#16 ∧ r.side = .none)

/-- A transaction moves one byte (R33). -/
def Transaction.OneByte : Transaction → Prop
  | .readBytes _ length _ => length = 1
  | .writeBytes _ bytes _ => bytes.length = 1

/-- While a bit-update command is in progress, ME and MASK are as its acceptance set them (R64). -/
def LatchesFit (s : State) : Prop :=
  match s.op with
  | .set => s.me = true
  | .setDefault => s.me = false ∧ s.mask = s.bits
  | .clear => s.mask = s.bits

/-- The invariant of the machine: the remote registers keep their canonical form; nothing is outstanding in IDLE (R47); the
latches of a command in progress fit it (R64); FUNC names a field (R55) and VAL fits the `val` field (R62); every response is
laid out as R67 says; and every transaction moved one byte (R33). -/
structure MachineInv (s : State) : Prop where
  memory : s.mem.wf
  idleQuiet : s.phase = .idle → s.outstanding = false
  latches : s.phase ≠ .idle → LatchesFit s
  func : s.func.toNat ≤ 4
  val : fitsVal s.val = true
  responses : ∀ r ∈ s.responses, r.WellFormed
  trace : ∀ x ∈ s.trace, x.OneByte

/-! ### Runs -/

/-- `n` steps of the machine, stopping at the first fault or refusal. -/
def run : Nat → State → Result
  | 0, s => .next s
  | n + 1, s =>
    match step s with
    | .next t => run n t
    | .fault x => .fault x
    | .refused x => .refused x

/-- The turns of other actors that leave these bytes at these addresses (R49). -/
def others (ps : List (Byte × Byte)) : List Turn := ps.map (fun p => .other p.1 p.2)

/-- One step of the block for each gap, and before it the other actors' moves of that gap (R49). -/
def blockAfterEach (gaps : List (List (Byte × Byte))) : List Turn := gaps.flatMap (fun ps => others ps ++ [.block])

/-- STORAGE_REGISTER(a) (R44) at the block's next step: a read of `a` has no effect on the device and returns the byte it holds;
a write of `a` that is answered `Ok` is taken; and no transaction leaves another byte at `a` on the side. So what `a` holds is
the byte last written to it, by anyone. -/
def StorageAt (a : Byte) (s : State) : Prop :=
  BlockMoves s →
    (s.phase = .read → ∀ r rest, s.readAnswers = r :: rest →
      (∀ p ∈ r.effects, p.1 ≠ a) ∧ (s.reg = a → r.effects = [] ∧ ∀ bs fx, r ≠ .bytes bs fx)) ∧
    (s.phase = .write → ∀ w rest, s.writeAnswers = w :: rest →
      (∀ p ∈ w.effects, p.1 ≠ a) ∧ (s.reg = a → ∀ fx, w ≠ .ok false fx))

/-- STORAGE_REGISTER(a) along the first `n` steps of a run. -/
def StorageRegister (a : Byte) (n : Nat) (s : State) : Prop := ∀ k t, k < n → run k s = .next t → StorageAt a t

/-! ### The bit-update commands, as claims speak of them -/

/-- A bit-update command's name, address, bits and effective mask (R64, R108 to R110), and nothing for another command. -/
def updateOf : Instr → Option (UpdateOp × Byte × Byte × Byte)
  | .setbits reg bits mask => some (.set, reg, bits, mask)
  | .setbitsD reg bits => some (.setDefault, reg, bits, bits)
  | .clrbits reg bits => some (.clear, reg, bits, bits)
  | _ => none

/-- ME after the command is accepted: CLRBITS does not write it (R11). -/
def meAfter (op : UpdateOp) (me : Bool) : Bool :=
  match op with
  | .set => true
  | .setDefault => false
  | .clear => me

/-- The f of R107: `(cur AND (0xFF - mask)) OR bits` of the two SetBits (R108, R109), `cur AND (0xFF - bits)` of ClearBits
(R110). The complement is written as the subtraction the rules write. -/
def writtenByte (op : UpdateOp) (cur bits mask : Byte) : Byte :=
  match op with
  | .set => (cur &&& (0xFF#8 - mask)) ||| bits
  | .setDefault => (cur &&& (0xFF#8 - mask)) ||| bits
  | .clear => cur &&& (0xFF#8 - bits)

/-- How the transactions of a command are answered, for a command that makes any. -/
inductive Reply where
  /-- the read with byte `c`, the write with `Ok` -/
  | done (c : Byte) (fx : Effects) (took : Bool) (fx' : Effects)
  /-- the read with `Err(e)` -/
  | readFails (e : Config.TErr) (fx : Effects)
  /-- the read with byte `c`, the write with `Err(e)` -/
  | writeFails (c : Byte) (fx : Effects) (e : Config.TErr) (took : Bool)
  deriving DecidableEq, Repr

/-- The read answers a command takes. -/
def readsOf (i : Instr) (r : Reply) : List ReadAnswer :=
  match updateOf i, r with
  | none, _ => []
  | some _, .done c fx _ _ => [.bytes [c] fx]
  | some _, .readFails e fx => [.err e fx]
  | some _, .writeFails c fx _ _ => [.bytes [c] fx]

/-- The write answers a command takes. -/
def writesOf (i : Instr) (r : Reply) : List WriteAnswer :=
  match updateOf i, r with
  | none, _ => []
  | some _, .done _ _ took fx' => [.ok took fx']
  | some _, .readFails _ _ => []
  | some _, .writeFails _ _ e took => [.err e took]

/-- The steps a command takes: a pure command one, a bit-update command one to be accepted and one for each transaction. -/
def stepsOf (i : Instr) (r : Reply) : Nat :=
  match updateOf i, r with
  | none, _ => 1
  | some _, .done _ _ _ _ => 3
  | some _, .readFails _ _ => 2
  | some _, .writeFails _ _ _ _ => 3

/-- The transactions a command shows on the port (R41, R107). -/
def transactionsOf (i : Instr) (r : Reply) : List Transaction :=
  match updateOf i, r with
  | none, _ => []
  | some (op, reg, bits, mask), .done c _ _ _ =>
    [.readBytes reg 1 (.ok c), .writeBytes reg [writtenByte op c bits mask] .ok]
  | some (_, reg, _, _), .readFails e _ => [.readBytes reg 1 (.err e)]
  | some (op, reg, bits, mask), .writeFails c _ e _ =>
    [.readBytes reg 1 (.ok c), .writeBytes reg [writtenByte op c bits mask] (.err e)]

/-- The next read is answered `Ok(b)`, with these effects: by the bytes given, or by the byte the device holds. -/
def ReadsOk (s : State) (b : Byte) (fx : Effects) (rest : List ReadAnswer) : Prop :=
  s.readAnswers = .bytes [b] fx :: rest ∨ (s.readAnswers = .held fx :: rest ∧ b = heldByte s.mem s.reg)

/-- The next read finds no answer: at this step, or ever. -/
def ReadWaits (s : State) : Prop := s.readAnswers = [] ∨ ∃ rest, s.readAnswers = .wait :: rest

/-- The next write finds no answer: at this step, or ever. -/
def WriteWaits (s : State) : Prop := s.writeAnswers = [] ∨ ∃ rest, s.writeAnswers = .wait :: rest

/-- The sequence of R107 for one command: what its run does in IDLE, in READ and in WRITE, for every answer, the whole next
state each time. `accepted` is the state once the command is accepted and `new` the byte it writes. What the remote registers
hold after a transaction is what the answer, an input, says (log entry 10). (`op`, the name of the accepted command, and
`outstanding` are the model's fields: log entries 1 and 2.) -/
def RunsSequence (i : Instr) (accepted : State → State) (new : State → Byte) : Prop :=
  ∀ s : State,
    (s.phase = .idle → exec i s = .next (accepted s)) ∧
    (s.phase = .read →
      (∀ b fx rest, ReadsOk s b fx rest → exec i s = .next { s with
        readAnswers := rest, outstanding := false, cur := b, phase := .write
        mem := s.mem.writes fx
        trace := s.trace ++ [.readBytes s.reg 1 (.ok b)] }) ∧
      (∀ e fx rest, s.readAnswers = .err e fx :: rest → exec i s = .next { s with
        readAnswers := rest, outstanding := false, phase := .idle
        mem := s.mem.writes fx
        trace := s.trace ++ [.readBytes s.reg 1 (.err e)]
        responses := s.responses ++ [⟨0x80000000#32, .terr e⟩] }) ∧
      (ReadWaits s → exec i s = .next { s with readAnswers := s.readAnswers.tail, outstanding := true })) ∧
    (s.phase = .write →
      (∀ took fx rest, s.writeAnswers = .ok took fx :: rest → exec i s = .next { s with
        writeAnswers := rest, outstanding := false, phase := .idle
        mem := (s.mem.takes took s.reg (new s)).writes fx
        trace := s.trace ++ [.writeBytes s.reg [new s] .ok]
        responses := s.responses ++ [⟨0x00000000#32, .none⟩] }) ∧
      (∀ e took rest, s.writeAnswers = .err e took :: rest → exec i s = .next { s with
        writeAnswers := rest, outstanding := false, phase := .idle
        mem := s.mem.takes took s.reg (new s)
        trace := s.trace ++ [.writeBytes s.reg [new s] (.err e)]
        responses := s.responses ++ [⟨0x80000000#32, .terr e⟩] }) ∧
      (WriteWaits s → exec i s = .next { s with writeAnswers := s.writeAnswers.tail, outstanding := true }))

/-! ### The pure commands, as claims speak of them -/

/-- What a converter does (R84, R85, R89 to R93): its word; in its domain the raw value, below `limit`, as data of an OK
response; outside it InvalidArgument with the quantity and the func code. VAL and FUNC are latched and nothing else changes. -/
def Converts (i : Int → Instr) (op : Word) (func : BitVec 4) (domain : Int → Prop) (raw : Int → Int) (limit : Int)
    (failed : Word) : Prop :=
  ∀ (v : Int) (s : State), s.phase = .idle →
    encode (i v) = op ||| (BitVec.ofInt 16 v).setWidth 32 ∧
    (domain v → 0 ≤ raw v ∧ raw v < limit ∧ exec (i v) s = .next { s with
      val := v, func := func, responses := s.responses ++ [⟨BitVec.ofInt 32 (raw v), .none⟩] }) ∧
    (¬ domain v → exec (i v) s = .next { s with
      val := v, func := func
      responses := s.responses ++ [⟨failed ||| (BitVec.ofInt 16 v).setWidth 32, .none⟩] })

/-- What a decoder does (R98 to R103): its word, and for every byte the quantity as data of an OK response. BITS and FUNC are
latched and nothing else changes. -/
def Decodes (i : Byte → Instr) (op : Word) (func : BitVec 4) (quantity : Byte → Nat) : Prop :=
  ∀ (b : Byte) (s : State), s.phase = .idle →
    encode (i b) = op ||| b.setWidth 32 ∧
    exec (i b) s = .next { s with
      bits := b, func := func, responses := s.responses ++ [⟨BitVec.ofNat 32 (quantity b), .none⟩] }

/-- The command is a converter with a quantity outside its domain (R128). -/
def OutOfDomain : Instr → Prop
  | .convDcdc v => v < 700 ∨ 3900 ≤ v
  | .convLdo3 v => v < 1800 ∨ 3400 ≤ v
  | .convLdo2 v => v < 1800 ∨ 3400 ≤ v
  | .convChgv v => v ≠ 4100 ∧ v ≠ 4150 ∧ v ≠ 4200 ∧ v ≠ 4360
  | .convChgi v => v < 100 ∨ 1320 < v
  | _ => False

/-! ### What the latches may influence -/

/-- Two states that differ at most in latches no rule lets a command read: in IDLE all of them; in READ, CUR, ME, FUNC and VAL;
in WRITE, ME, FUNC and VAL (R11). -/
structure SameButDeadLatches (s t : State) : Prop where
  phase : s.phase = t.phase
  outstanding : s.outstanding = t.outstanding
  mem : s.mem = t.mem
  commands : s.commands = t.commands
  responses : s.responses = t.responses
  trace : s.trace = t.trace
  readAnswers : s.readAnswers = t.readAnswers
  writeAnswers : s.writeAnswers = t.writeAnswers
  turns : s.turns = t.turns
  command : s.phase ≠ .idle → s.op = t.op ∧ s.reg = t.reg ∧ s.bits = t.bits ∧ s.mask = t.mask
  cur : s.phase = .write → s.cur = t.cur

/-- Two outcomes of the same kind, with states related by `R` or with the same reason. -/
def SameOutcome (R : State → State → Prop) : Result → Result → Prop
  | .next s, .next t => R s t
  | .fault a, .fault b => a = b
  | .refused a, .refused b => a = b
  | _, _ => False

/-- What the outside of the block sees: PHASE, how many words are not yet taken, the response port, the register-access port
and the remote registers. -/
structure SameOutside (s t : State) : Prop where
  phase : s.phase = t.phase
  outstanding : s.outstanding = t.outstanding
  mem : s.mem = t.mem
  waiting : s.commands.length = t.commands.length
  responses : s.responses = t.responses
  trace : s.trace = t.trace

/-! ### Several instances -/

/-- An instance that is about to run one command, with a read and a write that the device answers as storage does. -/
structure Ready (s : State) (i : Instr) : Prop where
  phase : s.phase = .idle
  turns : s.turns = []
  commands : s.commands = [encode i]
  readAnswers : s.readAnswers = [.held []]
  writeAnswers : s.writeAnswers = [.ok true []]

end Sys2Proof.Machine
end

