-- ==== Sys2Proof/Certificates/Slice0/Obligations.lean ====
section
/-! DEFINITION. The statements for the provers, each with the rule of the spec it formalises. Where a rule is marked by the
spec as derived, or a clause is the model's choice, the docstring says so. -/

open Sys2Proof Sys2Proof.Machine

/-! ### Reset, step and encoding -/

/-- R148 (decision D19): reset puts PHASE to IDLE, and after it the block accepts a command. Both for the state after power-on,
with a word presented, and for a reset at any time, with the word that waits then. -/
def Obligations.ResetAcceptsCommands : Prop :=
  State.reset.phase = .idle ∧
  (∀ w i, decode w = .ok i → step { State.reset with commands := [w] } = exec i State.reset) ∧
  (∀ s took ts, s.turns = .reset took :: ts → ∃ t, step s = .next t ∧ t.phase = .idle ∧
    ∀ w ws i, s.commands = w :: ws → BlockMoves t → decode w = .ok i →
      step t = exec i { afterTurn t with commands := ws })

/-- The state after reset meets the invariant. The latch values it holds are the model's choice, log entry 3. -/
def Obligations.ResetMeetsTheInvariant : Prop := MachineInv State.reset

/-- A step runs the decoded command. In IDLE the next word is taken and, where it decodes, the step is exec of its command; with
no word the block waits; in READ and WRITE the step is exec of the accepted command. A word that is no command is
IllegalWordsAreAnswered. Derived from R13, R71 and R107; that READ and WRITE run exec again is the model's form, log entry 1. -/
def Obligations.StepRunsDecodedCommand : Prop :=
  ∀ s, BlockMoves s →
    (∀ w ws i, s.phase = .idle → s.commands = w :: ws → decode w = .ok i →
      step s = exec i { afterTurn s with commands := ws }) ∧
    (s.phase = .idle → s.commands = [] → step s = .next (afterTurn s)) ∧
    (s.phase ≠ .idle →
      (s.op = .set → step s = exec (.setbits s.reg s.bits s.mask) (afterTurn s)) ∧
      (s.op = .setDefault → step s = exec (.setbitsD s.reg s.bits) (afterTurn s)) ∧
      (s.op = .clear → step s = exec (.clrbits s.reg s.bits) (afterTurn s)))

/-- Every well-formed command's word decodes to it, every operand at every value. Rests on the encodings of R60 to R65, the
spec's own choice (decision D3). -/
def Obligations.EncodedCommandDecodes : Prop := ∀ i : Instr, i.wf = true → decode (encode i) = .ok i

/-- Every word that decodes is the word of the command it decodes to, and that command is well formed: no word has a bit the
decoder ignores. Rests on R60 to R66 (decisions D3, D6). -/
def Obligations.DecodedWordIsItsEncoding : Prop := ∀ w i, decode w = .ok i → i.wf = true ∧ encode i = w

/-- Words written out from the formats of R60 and the map of R65 decode as the commands they stand for: one of each format, two
of format B. -/
def Obligations.SampleWordsDecode : Prop :=
  decode 0b0001_0000_00101000_0000000000000000#32 = .ok (.name 0x28#8) ∧
  decode 0b0010_0000_00000000_1111111111111111#32 = .ok (.convDcdc (-1)) ∧
  decode 0b0010_0100_00000000_0000010100101000#32 = .ok (.convChgi 1320) ∧
  decode 0b0011_0010_0000000000000000_11001111#32 = .ok (.decLdo2 0xCF#8) ∧
  decode 0b0100_000_1_00101000_11110000_01110000#32 = .ok (.setbits 0x28#8 0x70#8 0xF0#8) ∧
  decode 0b0100_000_0_00010010_00000000_00001000#32 = .ok (.setbitsD 0x12#8 0x08#8) ∧
  decode 0b0101_000_0_00010010_00000000_00001000#32 = .ok (.clrbits 0x12#8 0x08#8)

/-- R66 and R130 (decision D6): which words are illegal, word for word, the all-zero and the all-ones word among them; and what
the block does with one: status IllegalCommand, the word taken, nothing else changed, and the next word taken as ever. -/
def Obligations.IllegalWordsAreAnswered : Prop :=
  (∀ w : Word, decode w = .error .illegalCommand ↔
    (w.extractLsb' 28 4 = 0#4 ∨ 6 ≤ (w.extractLsb' 28 4).toNat ∨
     (w.extractLsb' 28 4 = 1#4 ∧ (w.extractLsb' 24 4 ≠ 0#4 ∨ w.extractLsb' 0 16 ≠ 0#16)) ∨
     (w.extractLsb' 28 4 = 2#4 ∧ (5 ≤ (w.extractLsb' 24 4).toNat ∨ w.extractLsb' 16 8 ≠ 0#8)) ∨
     (w.extractLsb' 28 4 = 3#4 ∧ (5 ≤ (w.extractLsb' 24 4).toNat ∨ w.extractLsb' 8 16 ≠ 0#16)) ∨
     (w.extractLsb' 28 4 = 4#4 ∧
       (w.extractLsb' 25 3 ≠ 0#3 ∨ (w.extractLsb' 24 1 = 0#1 ∧ w.extractLsb' 8 8 ≠ 0#8))) ∨
     (w.extractLsb' 28 4 = 5#4 ∧ (w.extractLsb' 24 4 ≠ 0#4 ∨ w.extractLsb' 8 8 ≠ 0#8)))) ∧
  decode 0x00000000#32 = .error .illegalCommand ∧ decode 0xFFFFFFFF#32 = .error .illegalCommand ∧
  (∀ s w ws, BlockMoves s → s.phase = .idle → s.commands = w :: ws → decode w = .error .illegalCommand →
    step s = .next { afterTurn s with commands := ws, responses := s.responses ++ [⟨0xC0000000#32, .none⟩] } ∧
    (∀ w' ws' i, ws = w' :: ws' → BlockMoves (afterTurn s) → decode w' = .ok i →
      run 2 s = exec i { afterTurn (afterTurn s) with
        commands := ws', responses := s.responses ++ [⟨0xC0000000#32, .none⟩] }))

/-! ### The pure commands -/

/-- R79, with R75 and R76 (decisions D3, D30, D32): NAME's word; REG <- reg; OK with data 1 and the entry's name where the
register map has an entry, with data 0 and the absent value where it has none; nothing else changes. -/
def Obligations.NameLooksUpTheRegisterMap : Prop :=
  ∀ (reg : Byte) (s : State), s.phase = .idle →
    encode (.name reg) = 0x10000000#32 ||| (reg.setWidth 32 <<< 16) ∧
    (∀ d, regmap reg = some d → exec (.name reg) s = .next { s with
      reg := reg, responses := s.responses ++ [⟨0x00000001#32, .name (some d.name)⟩] }) ∧
    (regmap reg = none → exec (.name reg) s = .next { s with
      reg := reg, responses := s.responses ++ [⟨0x00000000#32, .name none⟩] })

/-- R89: CONV.DCDC. -/
def Obligations.ConvDcdcConverts : Prop :=
  Converts .convDcdc 0x20000000#32 0#4 (fun v => 700 ≤ v ∧ v < 3900) (fun v => (v - 700) / 25) 128 0x40000000#32

/-- R90 (decision D10): CONV.LDO3. -/
def Obligations.ConvLdo3Converts : Prop :=
  Converts .convLdo3 0x21000000#32 1#4 (fun v => 1800 ≤ v ∧ v < 3400) (fun v => (v - 1800) / 100) 16 0x44000000#32

/-- R91: CONV.LDO2. The multiplication by 16 is the shift left by 4 of a code below 16. -/
def Obligations.ConvLdo2Converts : Prop :=
  Converts .convLdo2 0x22000000#32 2#4 (fun v => 1800 ≤ v ∧ v < 3400) (fun v => (v - 1800) / 100 * 16) 241 0x48000000#32

/-- R92: CONV.CHGV. -/
def Obligations.ConvChgvConverts : Prop :=
  Converts .convChgv 0x23000000#32 3#4 (fun v => v = 4100 ∨ v = 4150 ∨ v = 4200 ∨ v = 4360)
    (fun v => if v = 4100 then 0x00 else if v = 4150 then 0x20 else if v = 4200 then 0x40 else 0x60) 97 0x4C000000#32

/-- R93 (decision D11): CONV.CHGI. Both bounds are inside the domain. -/
def Obligations.ConvChgiConverts : Prop :=
  Converts .convChgi 0x24000000#32 4#4 (fun v => 100 ≤ v ∧ v ≤ 1320) (fun v => (v - 100) / 80) 16 0x50000000#32

/-- R59: the LDO2 converter reuses the low-nibble converter and shifts the result; same domain, same failures. -/
def Obligations.Ldo2ReusesLdo3 : Prop :=
  ∀ v, encodeQuantity .ldo2 v = (encodeQuantity .ldo3 v).map (fun b : Byte => b <<< 4)

/-- DEC.DCDC returns `700 + 25 * (BITS AND 0x7F)` (42_decoders.md section 2, derived there and decision D13). -/
def Obligations.DecDcdcDecodes : Prop :=
  Decodes .decDcdc 0x30000000#32 0#4 (fun b => 700 + 25 * (b &&& 0x7F#8).toNat)

/-- DEC.LDO3 returns `1800 + 100 * (BITS AND 0x0F)` (42_decoders.md section 2, derived there and decision D13). -/
def Obligations.DecLdo3Decodes : Prop :=
  Decodes .decLdo3 0x31000000#32 1#4 (fun b => 1800 + 100 * (b &&& 0x0F#8).toNat)

/-- DEC.LDO2 returns `1800 + 100 * ((BITS AND 0xF0) >> 4)` (42_decoders.md section 2, derived there and decision D13). -/
def Obligations.DecLdo2Decodes : Prop :=
  Decodes .decLdo2 0x32000000#32 2#4 (fun b => 1800 + 100 * ((b &&& 0xF0#8) >>> 4).toNat)

/-- DEC.CHGV returns 4100, 4150, 4200 or 4360 by the code at bits 6:5 (42_decoders.md section 2, derived there and decision
D13). -/
def Obligations.DecChgvDecodes : Prop :=
  Decodes .decChgv 0x33000000#32 3#4 (fun b =>
    if b &&& 0x60#8 = 0x00#8 then 4100 else if b &&& 0x60#8 = 0x20#8 then 4150
    else if b &&& 0x60#8 = 0x40#8 then 4200 else 4360)

/-- DEC.CHGI returns `100 + 80 * (BITS AND 0x0F)` (42_decoders.md section 2, derived there and decisions D11, D13). -/
def Obligations.DecChgiDecodes : Prop :=
  Decodes .decChgi 0x34000000#32 4#4 (fun b => 100 + 80 * (b &&& 0x0F#8).toNat)

/-- R85 and R103 (decision D13): a converter and a decoder answer in one step with a response that depends on the operand alone,
whatever the state; never TransportError, and for a decoder always OK; and they change nothing but BITS, FUNC and VAL and the
response port: no transaction, no remote register, PHASE at IDLE. -/
def Obligations.PureCommandsDependOnOperandsOnly : Prop :=
  ∀ i, updateOf i = none → (∀ reg, i ≠ .name reg) →
    ∃ r : Response, r.statusBits ≠ 2#2 ∧
      ((∃ b, i = .decDcdc b ∨ i = .decLdo3 b ∨ i = .decLdo2 b ∨ i = .decChgv b ∨ i = .decChgi b) → r.statusBits = 0#2) ∧
      ∀ s, s.phase = .idle → ∃ t, exec i s = .next t ∧ t = { s with
        bits := t.bits, func := t.func, val := t.val, responses := s.responses ++ [r] }

/-- R128: InvalidArgument is sent exactly by a converter given a quantity outside its domain: by these commands and no others, in
the step that takes the word, whatever the state. It names the quantity, as bits 15:0 of the word give it, and the accepted range,
by the func code of bits 27:24; and nothing but FUNC, VAL and the two ports has changed. -/
def Obligations.InvalidArgumentExactlyOutOfDomain : Prop :=
  (∀ s t, step s = .next t →
    ((∃ r, t.responses = s.responses ++ [r] ∧ r.statusBits = 1#2) ↔
      BlockMoves s ∧ s.phase = .idle ∧ ∃ w ws i, s.commands = w :: ws ∧ decode w = .ok i ∧ OutOfDomain i)) ∧
  (∀ s w ws i, BlockMoves s → s.phase = .idle → s.commands = w :: ws → decode w = .ok i → OutOfDomain i →
    ∃ r : Response, r.statusBits = 1#2 ∧ r.data = w.extractLsb' 0 16 ∧ r.aux = w.extractLsb' 24 4 ∧ r.side = .none ∧
      ∃ t, step s = .next t ∧ t = { afterTurn s with
        commands := ws, func := t.func, val := t.val, responses := s.responses ++ [r] })

/-- The round trips of 42_decoders.md section 3 (derived there): decoding a byte and encoding the quantity gives the byte's
field; encoding a quantity and decoding the result gives the grid value at or below it, or the quantity itself for the
enumerated field; and the step index held in the result is the floor of the formula. -/
def Obligations.EncodeAndDecodeAgree : Prop :=
  (∀ f b, encodeQuantity f (decodeQuantity f b) = some (b &&& fieldMask f)) ∧
  (∀ f l v raw, linearOf f = some l → encodeQuantity f v = some raw →
    decodeQuantity f raw = v - (v - l.offset) % l.step ∧ (index f raw : Int) = (v - l.offset) / l.step) ∧
  (∀ v raw, encodeQuantity .chgv v = some raw → decodeQuantity .chgv raw = v)

/-- The properties of 41_unit_converters.md section 4 (derived there) that hold of all five converters: a result has no bit
outside its field, and a larger quantity never gives a smaller result. -/
def Obligations.ConverterResultsStayInFieldAndOrder : Prop :=
  (∀ f v raw, encodeQuantity f v = some raw → raw &&& ~~~(fieldMask f) = 0#8) ∧
  (∀ f v v' raw raw', encodeQuantity f v = some raw → encodeQuantity f v' = some raw' → v ≤ v' → raw.toNat ≤ raw'.toNat)

/-- The constraints on REGMAP (40_register_map.md section 1, R78): every entry the block can look up has masks in 0x01 to 0xFF that
are contiguous runs of ones, with the shift of the lowest bit or, for a one-bit mask, none; fields that overlap only where the
catalogue says so; and at 0x28 and 0x12 the fields the source knows. Every entry of the open catalogue that is admissible is in
the map. Derived: that a shift is the mask's lowest bit is R53, and that "says so" is the list `sharesWith`, what a flag is, and
the admission by `Descriptor.wf` are log entry 16. -/
def Obligations.RegisterMapEntriesAreAdmissible : Prop :=
  (∀ a d, regmap a = some d →
    (∀ f ∈ d.fields, ∃ width shift, 1 ≤ width ∧ width + shift ≤ 8 ∧ f.mask.toNat = (2 ^ width - 1) * 2 ^ shift ∧
      (f.shift = some shift ∨ (f.shift = none ∧ width = 1))) ∧
    d.fields.Pairwise (fun f g => f.mask &&& g.mask = 0#8 ∨ g.fieldName ∈ f.sharesWith ∨ f.fieldName ∈ g.sharesWith) ∧
    (a = 0x28#8 → (∃ f ∈ d.fields, f.mask = 0x0F#8 ∧ f.shift = some 0) ∧ (∃ f ∈ d.fields, f.mask = 0xF0#8 ∧ f.shift = some 4)) ∧
    (a = 0x12#8 → ∃ f ∈ d.fields, f.mask = 0x08#8 ∧ f.kind = .flag)) ∧
  (∀ a d, Config.catalogue a = some d → Descriptor.wf a d = true → regmap a = some d)

/-! ### The bit-update commands -/

/-- R107 and R116 (decisions D7, D16): the sequence of every bit-update command. Accepting it latches REG, BITS and the effective
MASK; then it reads; and once the read has answered `Ok(b)` it writes its f of b, whatever that byte is, also where it is b. -/
def Obligations.UpdatesRunTheSequence : Prop :=
  ∀ i op reg bits mask, updateOf i = some (op, reg, bits, mask) →
    RunsSequence i
      (fun s => { s with reg := reg, bits := bits, mask := mask, me := meAfter op s.me, op := op, phase := .read })
      (fun s => writtenByte op s.cur s.bits s.mask)

/-- R108 with the sequence of R107 (decision D7): SETBITS. Its word; accepting it latches REG, BITS, the given MASK and ME = 1;
then the read; then the write of `(cur AND (0xFF - MASK)) OR BITS`, also when it is the byte read. -/
def Obligations.SetbitsReadsAndWrites : Prop :=
  ∀ reg bits mask : Byte,
    encode (.setbits reg bits mask) =
      0x41000000#32 ||| (reg.setWidth 32 <<< 16) ||| (mask.setWidth 32 <<< 8) ||| bits.setWidth 32 ∧
    RunsSequence (.setbits reg bits mask)
      (fun s => { s with reg := reg, bits := bits, mask := mask, me := true, op := .set, phase := .read })
      (fun s => (s.cur &&& (0xFF#8 - s.mask)) ||| s.bits)

/-- R109 with the sequence of R107 (decision D7): SETBITS.D. Its word; accepting it latches REG, BITS, MASK = BITS and ME = 0;
then the read; then the write by the same formula. -/
def Obligations.SetbitsDefaultReadsAndWrites : Prop :=
  ∀ reg bits : Byte,
    encode (.setbitsD reg bits) = 0x40000000#32 ||| (reg.setWidth 32 <<< 16) ||| bits.setWidth 32 ∧
    RunsSequence (.setbitsD reg bits)
      (fun s => { s with reg := reg, bits := bits, mask := bits, me := false, op := .setDefault, phase := .read })
      (fun s => (s.cur &&& (0xFF#8 - s.mask)) ||| s.bits)

/-- R110 with the sequence of R107 (decision D7): CLRBITS. Its word; accepting it latches REG, BITS and MASK = BITS and leaves ME;
then the read; then the write of `cur AND (0xFF - BITS)`. -/
def Obligations.ClrbitsReadsAndWrites : Prop :=
  ∀ reg bits : Byte,
    encode (.clrbits reg bits) = 0x50000000#32 ||| (reg.setWidth 32 <<< 16) ||| bits.setWidth 32 ∧
    RunsSequence (.clrbits reg bits)
      (fun s => { s with reg := reg, bits := bits, mask := bits, op := .clear, phase := .read })
      (fun s => s.cur &&& (0xFF#8 - s.bits))

/-- A bit-update command that succeeds runs in three steps and makes exactly two transactions, one read then one write, each of one
byte at the address it was given; the write is made whatever was read; nothing else follows (43_bit_update.md section 1, R115). The
whole end state is given. What the device holds at the end is what the collaborator's answers, inputs of the model, say: log entry
10. -/
def Obligations.UpdateMakesOneReadAndOneWrite : Prop :=
  ∀ i op reg bits mask s ws a c fx rs took fx' was, updateOf i = some (op, reg, bits, mask) →
    s.turns = [] → s.phase = .idle → s.commands = encode i :: ws →
    s.readAnswers = a :: rs → (a = .bytes [c] fx ∨ (a = .held fx ∧ c = heldByte s.mem reg)) →
    s.writeAnswers = .ok took fx' :: was →
    run 3 s = .next { s with
      op := op, reg := reg, bits := bits, mask := mask, me := meAfter op s.me, cur := c, phase := .idle, outstanding := false
      commands := ws, readAnswers := rs, writeAnswers := was
      mem := ((s.mem.writes fx).takes took reg (writtenByte op c bits mask)).writes fx'
      trace := s.trace ++ [.readBytes reg 1 (.ok c), .writeBytes reg [writtenByte op c bits mask] .ok]
      responses := s.responses ++ [⟨0x00000000#32, .none⟩] }

/-- R119 (decision D17): if the read fails, the failure value is handed on unchanged and no write is issued; the remote registers
change only as the device changed them in the failed read; and, however long the block then runs with no word presented, it does
nothing more. -/
def Obligations.FailedReadEndsTheCommand : Prop :=
  ∀ i op reg bits mask s e fx rs n, updateOf i = some (op, reg, bits, mask) →
    s.turns = [] → s.phase = .idle → s.commands = [encode i] → s.readAnswers = .err e fx :: rs →
    run (2 + n) s = .next { s with
      op := op, reg := reg, bits := bits, mask := mask, me := meAfter op s.me, outstanding := false
      commands := [], readAnswers := rs
      mem := s.mem.writes fx
      trace := s.trace ++ [.readBytes reg 1 (.err e)]
      responses := s.responses ++ [⟨0x80000000#32, .terr e⟩] }

/-- R120 (decision D31): if the write fails, the failure value is handed on unchanged; under WRITE_FAIL_NO_EFFECT the write changed
no remote register, and without it REG holds the old byte or the attempted one; CUR is dead (what that means is
LatchesDoNotOutliveTheirCommand); and, however long the block then runs with no word presented, it does nothing more. -/
def Obligations.FailedWriteEndsTheCommand : Prop :=
  ∀ i op reg bits mask s a c fx e took rs was n, updateOf i = some (op, reg, bits, mask) →
    s.turns = [] → s.phase = .idle → s.commands = [encode i] →
    s.readAnswers = a :: rs → (a = .bytes [c] fx ∨ (a = .held fx ∧ c = heldByte s.mem reg)) →
    s.writeAnswers = .err e took :: was →
    ∃ t, run (3 + n) s = .next t ∧
      (WriteFailNoEffect s.writeAnswers → t.mem = s.mem.writes fx) ∧
      (t.mem = s.mem.writes fx ∨ t.mem = (s.mem.writes fx).write reg (writtenByte op c bits mask)) ∧
      (∀ c', SameButDeadLatches t { t with cur := c' }) ∧
      t = { s with
        op := op, reg := reg, bits := bits, mask := mask, me := meAfter op s.me, cur := c, outstanding := false
        commands := [], readAnswers := rs, writeAnswers := was, mem := t.mem
        trace := s.trace ++ [.readBytes reg 1 (.ok c), .writeBytes reg [writtenByte op c bits mask] (.err e)]
        responses := s.responses ++ [⟨0x80000000#32, .terr e⟩] }

/-- R121: after a failure the block does not retry and does not restore. Whatever other actors do and whether or not the block is
reset, with no further word presented it makes no transaction and sends no response after the TransportError. -/
def Obligations.NothingFollowsAFailure : Prop :=
  ∀ s t u e n, step s = .next t → t.responses = s.responses ++ [⟨0x80000000#32, .terr e⟩] → s.commands = [] →
    run n t = .next u → u.trace = t.trace ∧ u.responses = t.responses ∧ u.phase = .idle

/-- R129 (decision D15): TransportError is sent exactly when a transaction is answered `Err(e)`, and e is passed on unchanged. -/
def Obligations.TransportErrorExactlyOnErr : Prop :=
  ∀ s t e, step s = .next t →
    (t.responses = s.responses ++ [⟨0x80000000#32, .terr e⟩] ↔
      BlockMoves s ∧ ((s.phase = .read ∧ ∃ fx rs, s.readAnswers = .err e fx :: rs) ∨
        (s.phase = .write ∧ ∃ took was, s.writeAnswers = .err e took :: was)))

/-- What the two formulas do to each bit (43_bit_update.md section 3 and the derived rule at the end of its section 1): a bit in
neither MASK nor BITS keeps the value read, a one of BITS is set wherever MASK is, a bit in MASK alone is cleared; with
MASK = BITS the result is `cur OR bits`; and ClearBits is SetBits with no bits and the mask `bits`. -/
def Obligations.WrittenBitByBit : Prop :=
  (∀ (cur mask bits : Byte) (i : Nat), (setByte cur mask bits).getLsbD i =
    (bits.getLsbD i || (!mask.getLsbD i && cur.getLsbD i))) ∧
  (∀ cur bits, setByte cur bits bits = cur ||| bits) ∧
  (∀ cur bits, clearByte cur bits = setByte cur bits 0#8)

/-- The use the block is for (00_scope.md section 3.2, 30_encoding.md Part C): writing a converter's result with SETBITS and the
field's mask sets that field to the quantity, as its decoder reads it, and leaves every bit outside the field as it was read;
so the two fields of register 0x28 do not disturb each other. Derived. -/
def Obligations.SetFieldSetsOnlyItsField : Prop :=
  (∀ f v raw cur, encodeQuantity f v = some raw →
    decodeQuantity f (setByte cur (fieldMask f) raw) = decodeQuantity f raw ∧
    setByte cur (fieldMask f) raw &&& ~~~(fieldMask f) = cur &&& ~~~(fieldMask f)) ∧
  (∀ v raw cur, encodeQuantity .ldo3 v = some raw →
    decodeQuantity .ldo2 (setByte cur (fieldMask .ldo3) raw) = decodeQuantity .ldo2 cur) ∧
  (∀ v raw cur, encodeQuantity .ldo2 v = some raw →
    decodeQuantity .ldo3 (setByte cur (fieldMask .ldo2) raw) = decodeQuantity .ldo3 cur)

/-- The equalities of 30_encoding.md Part C, derived there: SETBITS.D reg, b is SETBITS reg, b, b, and CLRBITS reg, b is SETBITS
reg, 0, b. However the collaborator answers and whoever moves between, the outside of the block sees the same after any number
of steps. -/
def Obligations.PseudoCommandsAreEqual : Prop :=
  ∀ (reg b : Byte) (i j : Instr), (i = .setbitsD reg b ∧ j = .setbits reg b b) ∨ (i = .clrbits reg b ∧ j = .setbits reg 0#8 b) →
    ∀ (s : State) (ws : List Word) (n : Nat), s.phase = .idle →
      SameOutcome SameOutside (run n { s with commands := encode i :: ws }) (run n { s with commands := encode j :: ws })

/-- Idempotence (43_bit_update.md section 6): under EXCLUSIVE_ACCESS and STORAGE_REGISTER for reg, whatever else other actors write
between any two steps and whatever the transactions do to other registers, the same bit-update command given twice, each
transaction answered `Ok`, writes the same byte twice and leaves it in the register. -/
def Obligations.SameUpdateTwiceIsOnce : Prop :=
  ∀ i op reg bits mask s gaps ws a c fx a' c' fx' rs took gx took' gx' was, updateOf i = some (op, reg, bits, mask) →
    s.phase = .idle → s.commands = encode i :: encode i :: ws →
    gaps.length = 6 → s.turns = blockAfterEach gaps → ExclusiveAccess reg s.turns →
    StorageRegister reg s.turns.length s →
    s.readAnswers = a :: a' :: rs → (a = .bytes [c] fx ∨ a = .held fx) → (a' = .bytes [c'] fx' ∨ a' = .held fx') →
    s.writeAnswers = .ok took gx :: .ok took' gx' :: was →
    ∃ t, run s.turns.length s = .next t ∧ t.phase = .idle ∧
      t.mem.read reg = some (writtenByte op (heldByte s.mem reg) bits mask) ∧
      t.trace = s.trace ++ [.readBytes reg 1 (.ok (heldByte s.mem reg)),
        .writeBytes reg [writtenByte op (heldByte s.mem reg) bits mask] .ok,
        .readBytes reg 1 (.ok (writtenByte op (heldByte s.mem reg) bits mask)),
        .writeBytes reg [writtenByte op (heldByte s.mem reg) bits mask] .ok] ∧
      t.responses = s.responses ++ [⟨0x00000000#32, .none⟩, ⟨0x00000000#32, .none⟩]

/-- R46 and R115: transactions appear on the port in the order in which the commands were accepted, all of one command before any of the
next: any list of commands, each with the answers its transactions get, shows the transactions of each in turn, for a
bit-update command that succeeds exactly one read then one write at its address, and each has its response. -/
def Obligations.CommandsTransactInOrder : Prop :=
  ∀ (us : List (Instr × Reply)) (s : State) ws rs was,
    (∀ u ∈ us, u.1.wf = true) → s.turns = [] → s.phase = .idle →
    s.commands = us.map (fun u => encode u.1) ++ ws →
    s.readAnswers = us.flatMap (fun u => readsOf u.1 u.2) ++ rs →
    s.writeAnswers = us.flatMap (fun u => writesOf u.1 u.2) ++ was →
    ∃ t, run (us.map (fun u => stepsOf u.1 u.2)).sum s = .next t ∧ t.phase = .idle ∧ t.commands = ws ∧
      t.trace = s.trace ++ us.flatMap (fun u => transactionsOf u.1 u.2) ∧
      t.responses.length = s.responses.length + us.length

/-! ### Races, reset and waiting -/

/-- R117: the lost update. Other actors write what they like before the command is accepted, before its read and between its
read and its write, and the transactions may have effects of their own: the byte written is f of the byte read, which is the byte
held at the read where the device answers it so, whatever stands there by then; where the device takes the byte and leaves it, it
stands at reg afterwards; and the response is OK. What the device does in the transactions comes with the answers, inputs: log
entry 10. -/
def Obligations.UpdateWritesOverConcurrentChange : Prop :=
  ∀ i op reg bits mask s before between after ws a c fx rs took fx' was, updateOf i = some (op, reg, bits, mask) →
    s.phase = .idle → s.commands = encode i :: ws → s.turns = blockAfterEach [before, between, after] →
    s.readAnswers = a :: rs →
    (a = .bytes [c] fx ∨ (a = .held fx ∧ c = heldByte ((s.mem.writes before).writes between) reg)) →
    s.writeAnswers = .ok took fx' :: was →
    ∃ t, run s.turns.length s = .next t ∧ t.phase = .idle ∧
      t.trace = s.trace ++ [.readBytes reg 1 (.ok c), .writeBytes reg [writtenByte op c bits mask] .ok] ∧
      t.mem = ((((((s.mem.writes before).writes between).writes fx).writes after).takes took reg
        (writtenByte op c bits mask)).writes fx') ∧
      (took = true → (∀ p ∈ fx', p.1 ≠ reg) → t.mem.read reg = some (writtenByte op c bits mask)) ∧
      t.responses = s.responses ++ [⟨0x00000000#32, .none⟩]

/-- Two instances, one device, one bit-update command each on the same register (60_exceptions.md section 7; program P4): in
whatever order they move, both answer OK, and the register holds both updates in one order or the other, or one of the two
alone; and in one order of moves the first instance's update is lost. The reads are answered as storage answers them. -/
def Obligations.TwoInstancesCanLoseAnUpdate : Prop :=
  ∀ (y : System) (A B : State) (i j : Instr) (op op' : UpdateOp) (reg bits bits' mask mask' : Byte),
    updateOf i = some (op, reg, bits, mask) → updateOf j = some (op', reg, bits', mask') →
    y.blocks = [A, B] → Ready A i → Ready B j →
    (3 ≤ y.order.count 0 → 3 ≤ y.order.count 1 →
      ∃ A' B', (System.run y.order.length y).blocks = [A', B'] ∧
        A'.responses = A.responses ++ [⟨0x00000000#32, .none⟩] ∧
        B'.responses = B.responses ++ [⟨0x00000000#32, .none⟩] ∧
        ((System.run y.order.length y).mem.read reg =
            some (writtenByte op' (writtenByte op (heldByte y.mem reg) bits mask) bits' mask') ∨
         (System.run y.order.length y).mem.read reg =
            some (writtenByte op (writtenByte op' (heldByte y.mem reg) bits' mask') bits mask) ∨
         (System.run y.order.length y).mem.read reg = some (writtenByte op (heldByte y.mem reg) bits mask) ∨
         (System.run y.order.length y).mem.read reg = some (writtenByte op' (heldByte y.mem reg) bits' mask'))) ∧
    (y.order = [0, 1, 0, 1, 0, 1] →
      (System.run 6 y).mem.read reg = some (writtenByte op' (heldByte y.mem reg) bits' mask'))

/-- R151 and R152 (decision D19): a reset abandons the command in progress. No response is sent, no word is taken, PHASE is IDLE,
nothing is outstanding; no remote register changes, but that a write already requested may have taken effect. No transaction is
issued: with nothing outstanding the port's history is as it was. -/
def Obligations.ResetAbandonsTheCommand : Prop :=
  ∀ s took ts, s.turns = .reset took :: ts →
    ∃ t, step s = .next t ∧ t.phase = .idle ∧ t.outstanding = false ∧
      t.responses = s.responses ∧ t.commands = s.commands ∧ t.turns = ts ∧
      t.readAnswers = s.readAnswers ∧ t.writeAnswers = s.writeAnswers ∧
      (¬ (s.outstanding = true ∧ s.phase = .write) → t.mem = s.mem) ∧
      (s.outstanding = true → s.phase = .write →
        t.mem = s.mem.takes took s.reg (writtenByte s.op s.cur s.bits s.mask)) ∧
      (s.outstanding = false → t.trace = s.trace)

/-- A request that was out when the reset came stands in the port's history as abandoned, at the address and with the byte it was
sent with, and nothing else is added. The model's form, log entry 2; rests on 70_reset_and_hazards.md section 1. -/
def Obligations.ResetShowsTheAbandonedRequest : Prop :=
  ∀ s took ts, s.turns = .reset took :: ts → s.outstanding = true →
    ∃ t, step s = .next t ∧
      (s.phase = .read → t.trace = s.trace ++ [.readBytes s.reg 1 .abandoned]) ∧
      (s.phase = .write →
        t.trace = s.trace ++ [.writeBytes s.reg [writtenByte s.op s.cur s.bits s.mask] .abandoned])

/-- R164: a bit-update command completes if and only if its transactions are answered. While the pending transaction finds no
answer, after any number of steps PHASE is where it was, no response is sent, no word is taken and no remote register changes.
Under COLLABORATOR_ANSWERS, however long the answers take, it ends: the command is back in IDLE with one response more. And a
reset ends the wait: the block is in IDLE, the answers to later requests are still to come, and the next word is taken as ever. -/
def Obligations.WaitsUntilAnswered : Prop :=
  (∀ s n, s.turns = [] →
    ((s.phase = .read ∧ ∀ r ∈ s.readAnswers, r = .wait) ∨ (s.phase = .write ∧ ∀ w ∈ s.writeAnswers, w = .wait)) →
    ∃ t, run n s = .next t ∧
      t = { s with outstanding := t.outstanding, readAnswers := t.readAnswers, writeAnswers := t.writeAnswers }) ∧
  (∀ s, s.turns = [] → s.phase ≠ .idle → CollaboratorAnswers s →
    ∃ n t r, n ≤ s.readAnswers.length + s.writeAnswers.length ∧ run n s = .next t ∧ t.phase = .idle ∧
      t.commands = s.commands ∧ t.responses = s.responses ++ [r]) ∧
  (∀ s took ts, s.turns = .block :: .reset took :: ts →
    ((s.phase = .read ∧ ReadWaits s) ∨ (s.phase = .write ∧ WriteWaits s)) →
    ∃ t, run 2 s = .next t ∧ t.phase = .idle ∧ t.responses = s.responses ∧ t.commands = s.commands ∧ t.turns = ts ∧
      (s.phase = .read → t.readAnswers = s.readAnswers.tail ∧ t.writeAnswers = s.writeAnswers) ∧
      (s.phase = .write → t.readAnswers = s.readAnswers ∧ t.writeAnswers = s.writeAnswers.tail) ∧
      ∀ w ws i, s.commands = w :: ws → BlockMoves t → decode w = .ok i →
        step t = exec i { afterTurn t with commands := ws })

/-! ### The whole machine -/

/-- R12 (decision D7): the transitions of PHASE, and no others. A pure command or an illegal word is taken and answered in one
step in IDLE; a bit-update command takes IDLE to READ; `Ok` takes READ to WRITE with CUR the byte; `Err` and the end of the
write take the block to IDLE with the response; without an answer it stays; a reset takes it to IDLE. Other actors move nothing
of it. -/
def Obligations.PhaseMovesAreTheOnlyOnes : Prop :=
  ∀ s t, step s = .next t →
    ((∃ took ts, s.turns = .reset took :: ts) ∧ t.phase = .idle ∧ t.responses = s.responses) ∨
    ((∃ a b ts, s.turns = .other a b :: ts) ∧ t.phase = s.phase ∧ t.responses = s.responses) ∨
    (BlockMoves s ∧
      ((s.phase = .idle ∧ s.commands = [] ∧ t.phase = .idle ∧ t.responses = s.responses) ∨
       (s.phase = .idle ∧ (∃ w ws, s.commands = w :: ws ∧ ∀ i, decode w = .ok i → updateOf i = none) ∧
          t.phase = .idle ∧ ∃ r, t.responses = s.responses ++ [r]) ∨
       (s.phase = .idle ∧ (∃ w ws i u, s.commands = w :: ws ∧ decode w = .ok i ∧ updateOf i = some u) ∧
          t.phase = .read ∧ t.responses = s.responses) ∨
       (s.phase = .read ∧ ReadWaits s ∧ t.phase = .read ∧ t.responses = s.responses) ∨
       (s.phase = .read ∧ (∃ b fx rest, ReadsOk s b fx rest ∧ t.cur = b) ∧ t.phase = .write ∧ t.responses = s.responses) ∨
       (s.phase = .read ∧ t.phase = .idle ∧
          ∃ e fx rest, s.readAnswers = .err e fx :: rest ∧ t.responses = s.responses ++ [⟨0x80000000#32, .terr e⟩]) ∨
       (s.phase = .write ∧ WriteWaits s ∧ t.phase = .write ∧ t.responses = s.responses) ∨
       (s.phase = .write ∧ t.phase = .idle ∧
          (∃ took fx rest, s.writeAnswers = .ok took fx :: rest) ∧ t.responses = s.responses ++ [⟨0x00000000#32, .none⟩]) ∨
       (s.phase = .write ∧ t.phase = .idle ∧
          ∃ e took rest, s.writeAnswers = .err e took :: rest ∧
            t.responses = s.responses ++ [⟨0x80000000#32, .terr e⟩])))

/-- The invariant of the machine is kept by every step, from every state that meets it: the remote registers' canonical form,
nothing outstanding in IDLE, the latches of a command in progress, a FUNC that names a field, a VAL in range, the layout of
every response, and transactions of one byte. Rests on R33, R47, R55, R62, R64 and R67. -/
def Obligations.StepKeepsTheInvariant : Prop := ∀ s t, MachineInv s → step s = .next t → MachineInv t

/-- No command reads a latch written by an earlier command. Two states that differ at most in latches that are
dead take the same step, and the states after it differ at most in dead latches again (10_state.md section 1.1,
decision D7). -/
def Obligations.LatchesDoNotOutliveTheirCommand : Prop :=
  ∀ s t, SameButDeadLatches s t → SameOutcome SameButDeadLatches (step s) (step t)

/-- Each accepted word owes exactly one response (70_reset_and_hazards.md section 3, 60_exceptions.md section 3, derived there): the
words not taken, the command in progress and the responses sent always add up to the same number; a reset in the middle of a
command loses that command's response and no other; and at the end of a run every word has its response. -/
def Obligations.EveryWordOwesOneResponse : Prop :=
  (∀ s t, step s = .next t → (∀ took ts, s.turns ≠ .reset took :: ts) → account t = account s) ∧
  (∀ s t took ts, step s = .next t → s.turns = .reset took :: ts →
    account t + (if s.phase = .idle then 0 else 1) = account s) ∧
  (∀ n s t, run n s = .next t → (∀ took, Turn.reset took ∉ s.turns) → s.phase = .idle → RunEnded t →
    t.responses.length = s.responses.length + s.commands.length)

/-- A step makes at most one transaction, of one byte, and none while PHASE is IDLE; it sends at most one response; what the
ports have shown never changes; and when a command ends nothing is outstanding (20_memory.md section 5). -/
def Obligations.OneTransactionAtATime : Prop :=
  ∀ s t, step s = .next t →
    (∃ xs, t.trace = s.trace ++ xs ∧ xs.length ≤ 1 ∧ (s.phase = .idle → xs = []) ∧ ∀ x ∈ xs, x.OneByte) ∧
    (∃ rs, t.responses = s.responses ++ rs ∧ rs.length ≤ 1) ∧
    (t.phase = .idle → s.phase ≠ .idle → t.outstanding = false)

/-- The frame of memory, for every command and phase (20_memory.md sections 3 and 4): only the write transaction of a bit-update
command stores, at REG alone, and where the device takes it, it stores the command's f of CUR. Every other address reads as
before, but where the answer of the transaction itself says that the device changed it (R44; log entry 10). -/
def Obligations.OnlyTheWriteStoresAndOnlyAtReg : Prop :=
  ∀ i s t, exec i s = .next t →
    (updateOf i = none ∨ s.phase = .idle → ∀ a, t.mem.read a = s.mem.read a) ∧
    (s.phase = .read → ∀ a, (∀ r rest, s.readAnswers = r :: rest → ∀ p ∈ r.effects, p.1 ≠ a) →
      t.mem.read a = s.mem.read a) ∧
    (s.phase = .write → ∀ a, (∀ w rest, s.writeAnswers = w :: rest → ∀ p ∈ w.effects, p.1 ≠ a) →
      (a ≠ s.reg → t.mem.read a = s.mem.read a) ∧
      (∀ op reg bits mask fx rest, updateOf i = some (op, reg, bits, mask) → s.writeAnswers = .ok true fx :: rest → a = s.reg →
        t.mem.read a = some (writtenByte op s.cur s.bits s.mask))) ∧
    (t.turns = s.turns ∧ t.commands = s.commands)

/-- The machine never refuses, and stops with a fault in one case only: the collaborator answers a read with a number of bytes
other than one, which R34 leaves without a meaning and forbids to take as success. In every other state the step answers a next
state. Derived; that it stops there is the model's choice, log entry 5. -/
def Obligations.StopsOnlyOnMalformedReply : Prop :=
  ∀ s, ((∃ t, step s = .next t) ↔
      ¬ (BlockMoves s ∧ s.phase = .read ∧ ∃ bs fx rest, s.readAnswers = .bytes bs fx :: rest ∧ bs.length ≠ 1)) ∧
    ((BlockMoves s ∧ s.phase = .read ∧ ∃ bs fx rest, s.readAnswers = .bytes bs fx :: rest ∧ bs.length ≠ 1) →
      step s = .fault .readLength)

/-- Nothing is shared between instances but the remote registers (60_exceptions.md section 7): a move of one instance leaves every
other instance as it was, adds only that instance's transactions to the port, and is that instance's own step on the shared
remote registers. -/
def Obligations.InstancesShareOnlyRemoteRegisters : Prop :=
  ∀ (y : System) (k : Nat) (ks : List Nat) (s t : State), y.order = k :: ks → y.blocks[k]? = some s →
    step { s with mem := y.mem } = .next t →
    y.step.mem = t.mem ∧ y.step.blocks[k]? = some t ∧ (∀ n, n ≠ k → y.step.blocks[n]? = y.blocks[n]?) ∧
    (∃ xs, y.step.port = y.port ++ xs ∧ ∀ x ∈ xs, x.1 = k ∧ x.2 ∈ t.trace) ∧ y.step.order = ks

/-- STORAGE_REGISTER (20_memory.md section 4, R44): under the premise for one address, at the block's step, a read of it changes no
remote register and CUR is the byte held there; a write of it answered `Ok` leaves it holding the byte written; and a transaction
at another address leaves it as it was. That a write answered `Ok` is stored rests on this premise and on nothing else. -/
def Obligations.StorageRegisterReadsBackTheLastWrite : Prop :=
  ∀ a s t, StorageAt a s → BlockMoves s → step s = .next t →
    (s.phase = .read → s.reg = a → t.mem = s.mem ∧ (t.phase = .write → t.cur = heldByte s.mem a)) ∧
    (s.phase = .write → s.reg = a → ∀ took fx was, s.writeAnswers = .ok took fx :: was →
      t.mem.read a = some (writtenByte s.op s.cur s.bits s.mask)) ∧
    (s.reg ≠ a → t.mem.read a = s.mem.read a)
end

