-- ==== Sys2Proof/Laws/Decode.lean ====
section
/-! SUPPORT. Laws of the decoder and the encoder: rows exclude each other, a fitting row decides, and the fields of each
format are where R60 puts them. -/

namespace Sys2Proof

theorem fits_iff (r : Row) (w : Word) : r.fits w = true ↔ w &&& r.care = r.value := by simp [Row.fits]

/-- Two rows differ in a bit that both of them care about (R65). -/
def Row.clash (r q : Row) : Bool := (r.value ^^^ q.value) &&& (r.care &&& q.care) != 0#32

theorem rows_clash : rows.Pairwise (fun r q => r.clash q = true) := by decide

theorem not_fits_of_clash {r q : Row} {w : Word} (h : r.clash q = true) (hr : r.fits w = true) : q.fits w = false := by
  cases hq : q.fits w with
  | false => rfl
  | true =>
    rw [fits_iff] at hr hq
    rw [Row.clash, ← hr, ← hq] at h
    have : (w &&& r.care ^^^ w &&& q.care) &&& (r.care &&& q.care) = 0#32 := by
      ext i hi
      simp only [BitVec.getElem_and, BitVec.getElem_xor, BitVec.getElem_zero]
      cases w[i] <;> cases r.care[i] <;> cases q.care[i] <;> rfl
    simp [this] at h

theorem find_of_fits {l : List Row} (hl : l.Pairwise (fun r q => r.clash q = true)) {r : Row} (hm : r ∈ l) {w : Word}
    (hw : r.fits w = true) : l.find? (fun q => q.fits w) = some r := by
  induction l with
  | nil => cases hm
  | cons q l ih =>
    obtain ⟨hq, hl⟩ := List.pairwise_cons.1 hl
    rcases List.mem_cons.1 hm with rfl | hm
    · simp [hw]
    · have hn : q.fits w = false := by
        cases h : q.fits w with
        | false => rfl
        | true => rw [not_fits_of_clash (hq r hm) h] at hw; cases hw
      simp [hn, ih hl hm]

/-- A row that fits decides: no other row fits the same word. -/
theorem decode_of_fits {r : Row} (hm : r ∈ rows) {w : Word} (hw : r.fits w = true) : decode w = .ok (r.build w) := by
  simp [decode, find_of_fits rows_clash hm hw]

/-- What the decoder answers, said once: the instruction of a row that fits. -/
theorem row_of_decode {w : Word} {i : Instr} (h : decode w = .ok i) : ∃ r ∈ rows, r.fits w = true ∧ i = r.build w := by
  unfold decode at h
  split at h
  · next r hr =>
    exact ⟨r, List.mem_of_find?_eq_some hr, by simpa using List.find?_some hr, by cases h; rfl⟩
  · cases h

/-- The decoder refuses exactly the words that no row fits (R66). -/
theorem decode_error_iff (w : Word) (x : Illegal) : decode w = .error x ↔ ∀ r ∈ rows, r.fits w = false := by
  cases x
  unfold decode
  constructor
  · intro h
    split at h
    · cases h
    · next hn => simpa using hn
  · intro h
    rw [List.find?_eq_none.2 (fun r hr => by simp [h r hr])]

/-! ### Where the formats put their fields -/

theorem getElem_fieldAt {n : Nat} (x : BitVec n) (lsb i : Nat) (hi : i < 32) :
    (fieldAt x lsb)[i] = (decide (lsb ≤ i) && x.getLsbD (i - lsb)) := by
  simp only [fieldAt, BitVec.getElem_shiftLeft]
  by_cases h : lsb ≤ i
  · simp [h, show ¬ i < lsb by omega]
  · simp [h, show i < lsb by omega]

theorem wordReg_formatN (op : BitVec 4) (reg : Byte) : wordReg (formatN op reg) = reg := by
  unfold wordReg formatN
  ext i hi
  have h : 16 + i < 32 := by omega
  simp [BitVec.getLsbD_eq_getElem h, getElem_fieldAt, show ¬ 28 ≤ 16 + i by omega, BitVec.getLsbD_eq_getElem hi]

theorem valField_formatC (op func : BitVec 4) (v : BitVec 16) : (formatC op func v).extractLsb' 0 16 = v := by
  unfold formatC
  ext i hi
  have h : i < 32 := by omega
  simp [BitVec.getLsbD_eq_getElem h, getElem_fieldAt, show ¬ 28 ≤ i by omega, show ¬ 24 ≤ i by omega,
    BitVec.getLsbD_eq_getElem hi]

theorem wordVal_formatC (op func : BitVec 4) {v : Int} (hv : fitsVal v = true) :
    wordVal (formatC op func (valField v)) = v := by
  simp only [fitsVal, Bool.and_eq_true, decide_eq_true_eq] at hv
  rw [wordVal, valField_formatC, valField, BitVec.toInt_ofInt]
  exact Int.bmod_eq_of_le (by omega) (by omega)

theorem wordByte_formatD (op func : BitVec 4) (b : Byte) : wordByte (formatD op func b) = b := by
  unfold wordByte formatD
  ext i hi
  have h : i < 32 := by omega
  simp [BitVec.getLsbD_eq_getElem h, getElem_fieldAt, show ¬ 28 ≤ i by omega, show ¬ 24 ≤ i by omega,
    BitVec.getLsbD_eq_getElem hi]

theorem wordReg_formatB (op : BitVec 4) (me : BitVec 1) (reg mask bits : Byte) :
    wordReg (formatB op me reg mask bits) = reg := by
  unfold wordReg formatB
  ext i hi
  have h : 16 + i < 32 := by omega
  simp [BitVec.getLsbD_eq_getElem h, getElem_fieldAt, show ¬ 28 ≤ 16 + i by omega, show ¬ 24 ≤ 16 + i by omega,
    show 8 ≤ 16 + i by omega, BitVec.getLsbD_of_ge mask (16 + i - 8) (by omega), BitVec.getLsbD_eq_getElem hi]

theorem wordMask_formatB (op : BitVec 4) (me : BitVec 1) (reg mask bits : Byte) :
    wordMask (formatB op me reg mask bits) = mask := by
  unfold wordMask formatB
  ext i hi
  have h : 8 + i < 32 := by omega
  simp [BitVec.getLsbD_eq_getElem h, getElem_fieldAt, show ¬ 28 ≤ 8 + i by omega, show ¬ 24 ≤ 8 + i by omega,
    show ¬ 16 ≤ 8 + i by omega, BitVec.getLsbD_eq_getElem hi]

theorem wordByte_formatB (op : BitVec 4) (me : BitVec 1) (reg mask bits : Byte) :
    wordByte (formatB op me reg mask bits) = bits := by
  unfold wordByte formatB
  ext i hi
  have h : i < 32 := by omega
  simp [BitVec.getLsbD_eq_getElem h, getElem_fieldAt, show ¬ 28 ≤ i by omega, show ¬ 24 ≤ i by omega,
    show ¬ 16 ≤ i by omega, show ¬ 8 ≤ i by omega, BitVec.getLsbD_eq_getElem hi]

/-! ### The fixed bits of each format -/

theorem formatN_fixed (op : BitVec 4) (reg : Byte) : formatN op reg &&& 0xFF00FFFF#32 = fieldAt op 28 := by
  unfold formatN
  ext i hi
  simp only [BitVec.getElem_and, BitVec.getElem_or, getElem_fieldAt]
  interval_cases i <;> simp

theorem formatC_fixed (op func : BitVec 4) (v : BitVec 16) :
    formatC op func v &&& 0xFFFF0000#32 = fieldAt op 28 ||| fieldAt func 24 := by
  unfold formatC
  ext i hi
  simp only [BitVec.getElem_and, BitVec.getElem_or, getElem_fieldAt]
  interval_cases i <;> simp

theorem formatD_fixed (op func : BitVec 4) (b : Byte) :
    formatD op func b &&& 0xFFFFFF00#32 = fieldAt op 28 ||| fieldAt func 24 := by
  unfold formatD
  ext i hi
  simp only [BitVec.getElem_and, BitVec.getElem_or, getElem_fieldAt]
  interval_cases i <;> simp

theorem formatB_fixed (op : BitVec 4) (me : BitVec 1) (reg mask bits : Byte) :
    formatB op me reg mask bits &&& 0xFF000000#32 = fieldAt op 28 ||| fieldAt me 24 := by
  unfold formatB
  ext i hi
  simp only [BitVec.getElem_and, BitVec.getElem_or, getElem_fieldAt]
  interval_cases i <;> simp

theorem formatB_fixed_no_mask (op : BitVec 4) (me : BitVec 1) (reg bits : Byte) :
    formatB op me reg 0#8 bits &&& 0xFF00FF00#32 = fieldAt op 28 ||| fieldAt me 24 := by
  unfold formatB
  ext i hi
  simp only [BitVec.getElem_and, BitVec.getElem_or, getElem_fieldAt]
  interval_cases i <;> simp

end Sys2Proof
end

