-- ==== Sys2Proof/Laws/Memory.lean ====
section
/-! SUPPORT. The laws of the remote registers' list: read after write, and the canonical form. -/

namespace Sys2Proof.Machine.Memory

theorem read_write_same (m : Memory) (a b : Byte) : (Memory.write m a b).read a = some b := by
  induction m with
  | nil => simp [Memory.write, Memory.read]
  | cons c m ih =>
    obtain ⟨k, d⟩ := c
    simp only [Memory.write]
    split
    · simp [Memory.read]
    · split
      · next h => simp [Memory.read, h]
      · next h => simp [Memory.read, Ne.symm h, ih]

theorem read_write_other (m : Memory) {a x : Byte} (b : Byte) (h : x ≠ a) : (Memory.write m a b).read x = m.read x := by
  have hn : a.toNat ≠ x.toNat := fun e => h (BitVec.eq_of_toNat_eq e.symm)
  induction m with
  | nil => simp [Memory.write, Memory.read, hn]
  | cons c m ih =>
    obtain ⟨k, d⟩ := c
    simp only [Memory.write]
    split
    · simp [Memory.read, hn]
    · split
      · next hk => subst hk; simp [Memory.read, hn]
      · simp [Memory.read, ih]

/-- A write adds no address but its own. -/
theorem fst_of_mem_write {m : Memory} {a b : Byte} {c : Host.Cell} (h : c ∈ Memory.write m a b) :
    c.1 = a.toNat ∨ c ∈ m := by
  induction m with
  | nil => simp only [Memory.write, List.mem_singleton] at h; simp [h]
  | cons d m ih =>
    obtain ⟨k, x⟩ := d
    simp only [Memory.write] at h
    split at h
    · rcases List.mem_cons.1 h with h | h
      · simp [h]
      · exact .inr h
    · split at h
      · next hk =>
        rcases List.mem_cons.1 h with h | h
        · simp [h, hk]
        · exact .inr (List.mem_cons_of_mem _ h)
      · rcases List.mem_cons.1 h with h | h
        · simp [h]
        · rcases ih h with h | h
          · exact .inl h
          · exact .inr (List.mem_cons_of_mem _ h)

/-- A write keeps the canonical form. -/
theorem wf_write {m : Memory} (h : m.wf) (a b : Byte) : (Memory.write m a b).wf := by
  constructor
  · obtain ⟨hp, -⟩ := h
    induction m with
    | nil => simp [Memory.write]
    | cons c m ih =>
      obtain ⟨k, d⟩ := c
      obtain ⟨hk, hm⟩ := List.pairwise_cons.1 hp
      simp only [Memory.write]
      split
      · next hlt =>
        refine List.pairwise_cons.2 ⟨fun y hy => ?_, hp⟩
        rcases List.mem_cons.1 hy with rfl | hy
        · exact hlt
        · exact Nat.lt_trans hlt (hk y hy)
      · split
        · exact List.pairwise_cons.2 ⟨hk, hm⟩
        · refine List.pairwise_cons.2 ⟨fun y hy => ?_, ih hm⟩
          rcases fst_of_mem_write hy with hy | hy
          · simp only [hy]; omega
          · exact hk y hy
  · intro c hc
    rcases fst_of_mem_write hc with hc | hc
    · rw [hc]; exact a.isLt
    · exact h.2 c hc

/-- Several writes keep the canonical form. -/
theorem wf_writes {m : Memory} (h : m.wf) (ps : List (Byte × Byte)) : (Memory.writes m ps).wf := by
  unfold Memory.writes
  induction ps generalizing m with
  | nil => exact h
  | cons p ps ih => exact ih (wf_write h p.1 p.2)

theorem wf_takes {m : Memory} (h : m.wf) (took : Bool) (a b : Byte) : (Memory.takes m took a b).wf := by
  unfold Memory.takes
  split
  · exact wf_write h a b
  · exact h

@[simp] theorem writes_nil (m : Memory) : Memory.writes m [] = m := rfl
@[simp] theorem writes_cons (m : Memory) (p : Byte × Byte) (ps : List (Byte × Byte)) :
    Memory.writes m (p :: ps) = Memory.writes (m.write p.1 p.2) ps := rfl
@[simp] theorem takes_true (m : Memory) (a b : Byte) : Memory.takes m true a b = m.write a b := rfl
@[simp] theorem takes_false (m : Memory) (a b : Byte) : Memory.takes m false a b = m := rfl

/-- Writes elsewhere leave an address alone. -/
theorem read_writes_other (m : Memory) {x : Byte} {ps : List (Byte × Byte)} (h : ∀ p ∈ ps, p.1 ≠ x) :
    (Memory.writes m ps).read x = m.read x := by
  induction ps generalizing m with
  | nil => rfl
  | cons p ps ih =>
    rw [writes_cons, ih _ (fun q hq => h q (List.mem_cons_of_mem _ hq)),
      read_write_other m p.2 (h p List.mem_cons_self).symm]

theorem read_takes_other (m : Memory) (took : Bool) {a x : Byte} (b : Byte) (h : x ≠ a) :
    (Memory.takes m took a b).read x = m.read x := by
  cases took
  · rfl
  · exact read_write_other m b h

theorem wf_nil : Memory.wf [] := ⟨List.Pairwise.nil, fun _ h => nomatch h⟩

end Sys2Proof.Machine.Memory
end

