-- ==== Sys2Proof/Laws/Response.lean ====
section
/-! SUPPORT. The fields of a response word are where R67 puts them. -/

namespace Sys2Proof.Machine

variable (st : Status) (a : BitVec 4) (d : BitVec 16) (side : SideBand)

@[simp] theorem statusBits_responseWord : (Response.statusBits ⟨responseWord st a d, side⟩) = st.code := by
  simp only [Response.statusBits, responseWord]
  ext i hi
  rw [BitVec.getElem_extractLsb', BitVec.getLsbD_eq_getElem (by omega)]
  simp only [BitVec.getElem_or, getElem_fieldAt]
  simp [BitVec.getLsbD_of_ge a (30 + i - 26) (by omega), BitVec.getLsbD_of_ge d (30 + i) (by omega),
    BitVec.getLsbD_eq_getElem hi]

@[simp] theorem aux_responseWord : (Response.aux ⟨responseWord st a d, side⟩) = a := by
  simp only [Response.aux, responseWord]
  ext i hi
  rw [BitVec.getElem_extractLsb', BitVec.getLsbD_eq_getElem (by omega)]
  simp only [BitVec.getElem_or, getElem_fieldAt]
  simp [show ¬ 30 ≤ 26 + i by omega, BitVec.getLsbD_of_ge d (26 + i) (by omega), BitVec.getLsbD_eq_getElem hi]

@[simp] theorem reserved_responseWord : (Response.reserved ⟨responseWord st a d, side⟩) = 0#10 := by
  simp only [Response.reserved, responseWord]
  ext i hi
  rw [BitVec.getElem_extractLsb', BitVec.getLsbD_eq_getElem (by omega)]
  simp only [BitVec.getElem_or, getElem_fieldAt]
  simp [show ¬ 30 ≤ 16 + i by omega, show ¬ 26 ≤ 16 + i by omega]

@[simp] theorem data_responseWord : (Response.data ⟨responseWord st a d, side⟩) = d := by
  simp only [Response.data, responseWord]
  ext i hi
  rw [BitVec.getElem_extractLsb', BitVec.getLsbD_eq_getElem (by omega)]
  simp only [BitVec.getElem_or, getElem_fieldAt]
  simp [show ¬ 30 ≤ i by omega, show ¬ 26 ≤ i by omega, BitVec.getLsbD_eq_getElem hi]

/-! ### The response words that carry no operand -/

theorem ok_response : okResponse 0#16 .none = ⟨0x00000000#32, .none⟩ := by decide

theorem transportError_response (e : Config.TErr) : (Error.transportError e).response = ⟨0x80000000#32, .terr e⟩ := by
  simp only [Error.response]; congr 1

theorem illegalCommand_response : Error.illegalCommand.response = ⟨0xC0000000#32, .none⟩ := by decide

end Sys2Proof.Machine
end

