-- ==== Sys2Proof/Laws/State.lean ====
section
/-! SUPPORT. What each update of State does to each field, one lemma per field per update. -/

namespace Sys2Proof.Machine

open Sys2Proof.Config (TErr)

variable (s : State)

/-! ### respond -/

@[simp] theorem respond_reg (r : Response) : (respond r s).reg = s.reg := rfl
@[simp] theorem respond_bits (r : Response) : (respond r s).bits = s.bits := rfl
@[simp] theorem respond_mask (r : Response) : (respond r s).mask = s.mask := rfl
@[simp] theorem respond_me (r : Response) : (respond r s).me = s.me := rfl
@[simp] theorem respond_func (r : Response) : (respond r s).func = s.func := rfl
@[simp] theorem respond_val (r : Response) : (respond r s).val = s.val := rfl
@[simp] theorem respond_cur (r : Response) : (respond r s).cur = s.cur := rfl
@[simp] theorem respond_phase (r : Response) : (respond r s).phase = s.phase := rfl
@[simp] theorem respond_op (r : Response) : (respond r s).op = s.op := rfl
@[simp] theorem respond_outstanding (r : Response) : (respond r s).outstanding = s.outstanding := rfl
@[simp] theorem respond_mem (r : Response) : (respond r s).mem = s.mem := rfl
@[simp] theorem respond_commands (r : Response) : (respond r s).commands = s.commands := rfl
@[simp] theorem respond_responses (r : Response) : (respond r s).responses = s.responses ++ [r] := rfl
@[simp] theorem respond_trace (r : Response) : (respond r s).trace = s.trace := rfl
@[simp] theorem respond_readAnswers (r : Response) : (respond r s).readAnswers = s.readAnswers := rfl
@[simp] theorem respond_writeAnswers (r : Response) : (respond r s).writeAnswers = s.writeAnswers := rfl
@[simp] theorem respond_turns (r : Response) : (respond r s).turns = s.turns := rfl

/-! ### raise -/

@[simp] theorem raise_reg (x : Error) : (raise x s).reg = s.reg := rfl
@[simp] theorem raise_bits (x : Error) : (raise x s).bits = s.bits := rfl
@[simp] theorem raise_mask (x : Error) : (raise x s).mask = s.mask := rfl
@[simp] theorem raise_me (x : Error) : (raise x s).me = s.me := rfl
@[simp] theorem raise_func (x : Error) : (raise x s).func = s.func := rfl
@[simp] theorem raise_val (x : Error) : (raise x s).val = s.val := rfl
@[simp] theorem raise_cur (x : Error) : (raise x s).cur = s.cur := rfl
@[simp] theorem raise_phase (x : Error) : (raise x s).phase = .idle := rfl
@[simp] theorem raise_op (x : Error) : (raise x s).op = s.op := rfl
@[simp] theorem raise_outstanding (x : Error) : (raise x s).outstanding = s.outstanding := rfl
@[simp] theorem raise_mem (x : Error) : (raise x s).mem = s.mem := rfl
@[simp] theorem raise_commands (x : Error) : (raise x s).commands = s.commands := rfl
@[simp] theorem raise_responses (x : Error) : (raise x s).responses = s.responses ++ [x.response] := rfl
@[simp] theorem raise_trace (x : Error) : (raise x s).trace = s.trace := rfl
@[simp] theorem raise_readAnswers (x : Error) : (raise x s).readAnswers = s.readAnswers := rfl
@[simp] theorem raise_writeAnswers (x : Error) : (raise x s).writeAnswers = s.writeAnswers := rfl
@[simp] theorem raise_turns (x : Error) : (raise x s).turns = s.turns := rfl

/-! ### endTransaction -/

@[simp] theorem endTransaction_reg (x : Transaction) : (endTransaction x s).reg = s.reg := rfl
@[simp] theorem endTransaction_bits (x : Transaction) : (endTransaction x s).bits = s.bits := rfl
@[simp] theorem endTransaction_mask (x : Transaction) : (endTransaction x s).mask = s.mask := rfl
@[simp] theorem endTransaction_me (x : Transaction) : (endTransaction x s).me = s.me := rfl
@[simp] theorem endTransaction_func (x : Transaction) : (endTransaction x s).func = s.func := rfl
@[simp] theorem endTransaction_val (x : Transaction) : (endTransaction x s).val = s.val := rfl
@[simp] theorem endTransaction_cur (x : Transaction) : (endTransaction x s).cur = s.cur := rfl
@[simp] theorem endTransaction_phase (x : Transaction) : (endTransaction x s).phase = s.phase := rfl
@[simp] theorem endTransaction_op (x : Transaction) : (endTransaction x s).op = s.op := rfl
@[simp] theorem endTransaction_outstanding (x : Transaction) : (endTransaction x s).outstanding = false := rfl
@[simp] theorem endTransaction_mem (x : Transaction) : (endTransaction x s).mem = s.mem := rfl
@[simp] theorem endTransaction_commands (x : Transaction) : (endTransaction x s).commands = s.commands := rfl
@[simp] theorem endTransaction_responses (x : Transaction) : (endTransaction x s).responses = s.responses := rfl
@[simp] theorem endTransaction_trace (x : Transaction) : (endTransaction x s).trace = s.trace ++ [x] := rfl
@[simp] theorem endTransaction_readAnswers (x : Transaction) : (endTransaction x s).readAnswers = s.readAnswers := rfl
@[simp] theorem endTransaction_writeAnswers (x : Transaction) : (endTransaction x s).writeAnswers = s.writeAnswers := rfl
@[simp] theorem endTransaction_turns (x : Transaction) : (endTransaction x s).turns = s.turns := rfl

/-! ### acceptUpdate -/

@[simp] theorem acceptUpdate_reg (o : UpdateOp) (a b m : Byte) : (acceptUpdate o a b m s).reg = a := rfl
@[simp] theorem acceptUpdate_bits (o : UpdateOp) (a b m : Byte) : (acceptUpdate o a b m s).bits = b := rfl
@[simp] theorem acceptUpdate_mask (o : UpdateOp) (a b m : Byte) : (acceptUpdate o a b m s).mask = m := rfl
@[simp] theorem acceptUpdate_me (o : UpdateOp) (a b m : Byte) : (acceptUpdate o a b m s).me = s.me := rfl
@[simp] theorem acceptUpdate_func (o : UpdateOp) (a b m : Byte) : (acceptUpdate o a b m s).func = s.func := rfl
@[simp] theorem acceptUpdate_val (o : UpdateOp) (a b m : Byte) : (acceptUpdate o a b m s).val = s.val := rfl
@[simp] theorem acceptUpdate_cur (o : UpdateOp) (a b m : Byte) : (acceptUpdate o a b m s).cur = s.cur := rfl
@[simp] theorem acceptUpdate_phase (o : UpdateOp) (a b m : Byte) : (acceptUpdate o a b m s).phase = .read := rfl
@[simp] theorem acceptUpdate_op (o : UpdateOp) (a b m : Byte) : (acceptUpdate o a b m s).op = o := rfl
@[simp] theorem acceptUpdate_outstanding (o : UpdateOp) (a b m : Byte) : (acceptUpdate o a b m s).outstanding = s.outstanding := rfl
@[simp] theorem acceptUpdate_mem (o : UpdateOp) (a b m : Byte) : (acceptUpdate o a b m s).mem = s.mem := rfl
@[simp] theorem acceptUpdate_commands (o : UpdateOp) (a b m : Byte) : (acceptUpdate o a b m s).commands = s.commands := rfl
@[simp] theorem acceptUpdate_responses (o : UpdateOp) (a b m : Byte) : (acceptUpdate o a b m s).responses = s.responses := rfl
@[simp] theorem acceptUpdate_trace (o : UpdateOp) (a b m : Byte) : (acceptUpdate o a b m s).trace = s.trace := rfl
@[simp] theorem acceptUpdate_readAnswers (o : UpdateOp) (a b m : Byte) : (acceptUpdate o a b m s).readAnswers = s.readAnswers := rfl
@[simp] theorem acceptUpdate_writeAnswers (o : UpdateOp) (a b m : Byte) : (acceptUpdate o a b m s).writeAnswers = s.writeAnswers := rfl
@[simp] theorem acceptUpdate_turns (o : UpdateOp) (a b m : Byte) : (acceptUpdate o a b m s).turns = s.turns := rfl

/-! ### readOk -/

@[simp] theorem readOk_reg (b : Byte) : (readOk b s).reg = s.reg := rfl
@[simp] theorem readOk_bits (b : Byte) : (readOk b s).bits = s.bits := rfl
@[simp] theorem readOk_mask (b : Byte) : (readOk b s).mask = s.mask := rfl
@[simp] theorem readOk_me (b : Byte) : (readOk b s).me = s.me := rfl
@[simp] theorem readOk_func (b : Byte) : (readOk b s).func = s.func := rfl
@[simp] theorem readOk_val (b : Byte) : (readOk b s).val = s.val := rfl
@[simp] theorem readOk_cur (b : Byte) : (readOk b s).cur = b := rfl
@[simp] theorem readOk_phase (b : Byte) : (readOk b s).phase = .write := rfl
@[simp] theorem readOk_op (b : Byte) : (readOk b s).op = s.op := rfl
@[simp] theorem readOk_outstanding (b : Byte) : (readOk b s).outstanding = false := rfl
@[simp] theorem readOk_mem (b : Byte) : (readOk b s).mem = s.mem := rfl
@[simp] theorem readOk_commands (b : Byte) : (readOk b s).commands = s.commands := rfl
@[simp] theorem readOk_responses (b : Byte) : (readOk b s).responses = s.responses := rfl
@[simp] theorem readOk_trace (b : Byte) : (readOk b s).trace = s.trace ++ [.readBytes s.reg 1 (.ok b)] := rfl
@[simp] theorem readOk_readAnswers (b : Byte) : (readOk b s).readAnswers = s.readAnswers := rfl
@[simp] theorem readOk_writeAnswers (b : Byte) : (readOk b s).writeAnswers = s.writeAnswers := rfl
@[simp] theorem readOk_turns (b : Byte) : (readOk b s).turns = s.turns := rfl

/-! ### readErr -/

@[simp] theorem readErr_reg (e : TErr) : (readErr e s).reg = s.reg := rfl
@[simp] theorem readErr_bits (e : TErr) : (readErr e s).bits = s.bits := rfl
@[simp] theorem readErr_mask (e : TErr) : (readErr e s).mask = s.mask := rfl
@[simp] theorem readErr_me (e : TErr) : (readErr e s).me = s.me := rfl
@[simp] theorem readErr_func (e : TErr) : (readErr e s).func = s.func := rfl
@[simp] theorem readErr_val (e : TErr) : (readErr e s).val = s.val := rfl
@[simp] theorem readErr_cur (e : TErr) : (readErr e s).cur = s.cur := rfl
@[simp] theorem readErr_phase (e : TErr) : (readErr e s).phase = .idle := rfl
@[simp] theorem readErr_op (e : TErr) : (readErr e s).op = s.op := rfl
@[simp] theorem readErr_outstanding (e : TErr) : (readErr e s).outstanding = false := rfl
@[simp] theorem readErr_mem (e : TErr) : (readErr e s).mem = s.mem := rfl
@[simp] theorem readErr_commands (e : TErr) : (readErr e s).commands = s.commands := rfl
@[simp] theorem readErr_responses (e : TErr) : (readErr e s).responses = s.responses ++ [(Error.transportError e).response] := rfl
@[simp] theorem readErr_trace (e : TErr) : (readErr e s).trace = s.trace ++ [.readBytes s.reg 1 (.err e)] := rfl
@[simp] theorem readErr_readAnswers (e : TErr) : (readErr e s).readAnswers = s.readAnswers := rfl
@[simp] theorem readErr_writeAnswers (e : TErr) : (readErr e s).writeAnswers = s.writeAnswers := rfl
@[simp] theorem readErr_turns (e : TErr) : (readErr e s).turns = s.turns := rfl

/-! ### writeOk -/

@[simp] theorem writeOk_reg (n : Byte) (k : Bool) (fx : Effects) : (writeOk n k fx s).reg = s.reg := rfl
@[simp] theorem writeOk_bits (n : Byte) (k : Bool) (fx : Effects) : (writeOk n k fx s).bits = s.bits := rfl
@[simp] theorem writeOk_mask (n : Byte) (k : Bool) (fx : Effects) : (writeOk n k fx s).mask = s.mask := rfl
@[simp] theorem writeOk_me (n : Byte) (k : Bool) (fx : Effects) : (writeOk n k fx s).me = s.me := rfl
@[simp] theorem writeOk_func (n : Byte) (k : Bool) (fx : Effects) : (writeOk n k fx s).func = s.func := rfl
@[simp] theorem writeOk_val (n : Byte) (k : Bool) (fx : Effects) : (writeOk n k fx s).val = s.val := rfl
@[simp] theorem writeOk_cur (n : Byte) (k : Bool) (fx : Effects) : (writeOk n k fx s).cur = s.cur := rfl
@[simp] theorem writeOk_phase (n : Byte) (k : Bool) (fx : Effects) : (writeOk n k fx s).phase = .idle := rfl
@[simp] theorem writeOk_op (n : Byte) (k : Bool) (fx : Effects) : (writeOk n k fx s).op = s.op := rfl
@[simp] theorem writeOk_outstanding (n : Byte) (k : Bool) (fx : Effects) : (writeOk n k fx s).outstanding = false := rfl
@[simp] theorem writeOk_mem (n : Byte) (k : Bool) (fx : Effects) : (writeOk n k fx s).mem = (s.mem.takes k s.reg n).writes fx := rfl
@[simp] theorem writeOk_commands (n : Byte) (k : Bool) (fx : Effects) : (writeOk n k fx s).commands = s.commands := rfl
@[simp] theorem writeOk_responses (n : Byte) (k : Bool) (fx : Effects) : (writeOk n k fx s).responses = s.responses ++ [okResponse 0#16 .none] := rfl
@[simp] theorem writeOk_trace (n : Byte) (k : Bool) (fx : Effects) : (writeOk n k fx s).trace = s.trace ++ [.writeBytes s.reg [n] .ok] := rfl
@[simp] theorem writeOk_readAnswers (n : Byte) (k : Bool) (fx : Effects) : (writeOk n k fx s).readAnswers = s.readAnswers := rfl
@[simp] theorem writeOk_writeAnswers (n : Byte) (k : Bool) (fx : Effects) : (writeOk n k fx s).writeAnswers = s.writeAnswers := rfl
@[simp] theorem writeOk_turns (n : Byte) (k : Bool) (fx : Effects) : (writeOk n k fx s).turns = s.turns := rfl

/-! ### writeErr -/

@[simp] theorem writeErr_reg (n : Byte) (e : TErr) (k : Bool) : (writeErr n e k s).reg = s.reg := rfl
@[simp] theorem writeErr_bits (n : Byte) (e : TErr) (k : Bool) : (writeErr n e k s).bits = s.bits := rfl
@[simp] theorem writeErr_mask (n : Byte) (e : TErr) (k : Bool) : (writeErr n e k s).mask = s.mask := rfl
@[simp] theorem writeErr_me (n : Byte) (e : TErr) (k : Bool) : (writeErr n e k s).me = s.me := rfl
@[simp] theorem writeErr_func (n : Byte) (e : TErr) (k : Bool) : (writeErr n e k s).func = s.func := rfl
@[simp] theorem writeErr_val (n : Byte) (e : TErr) (k : Bool) : (writeErr n e k s).val = s.val := rfl
@[simp] theorem writeErr_cur (n : Byte) (e : TErr) (k : Bool) : (writeErr n e k s).cur = s.cur := rfl
@[simp] theorem writeErr_phase (n : Byte) (e : TErr) (k : Bool) : (writeErr n e k s).phase = .idle := rfl
@[simp] theorem writeErr_op (n : Byte) (e : TErr) (k : Bool) : (writeErr n e k s).op = s.op := rfl
@[simp] theorem writeErr_outstanding (n : Byte) (e : TErr) (k : Bool) : (writeErr n e k s).outstanding = false := rfl
@[simp] theorem writeErr_mem (n : Byte) (e : TErr) (k : Bool) : (writeErr n e k s).mem = s.mem.takes k s.reg n := rfl
@[simp] theorem writeErr_commands (n : Byte) (e : TErr) (k : Bool) : (writeErr n e k s).commands = s.commands := rfl
@[simp] theorem writeErr_responses (n : Byte) (e : TErr) (k : Bool) : (writeErr n e k s).responses = s.responses ++ [(Error.transportError e).response] := rfl
@[simp] theorem writeErr_trace (n : Byte) (e : TErr) (k : Bool) : (writeErr n e k s).trace = s.trace ++ [.writeBytes s.reg [n] (.err e)] := rfl
@[simp] theorem writeErr_readAnswers (n : Byte) (e : TErr) (k : Bool) : (writeErr n e k s).readAnswers = s.readAnswers := rfl
@[simp] theorem writeErr_writeAnswers (n : Byte) (e : TErr) (k : Bool) : (writeErr n e k s).writeAnswers = s.writeAnswers := rfl
@[simp] theorem writeErr_turns (n : Byte) (e : TErr) (k : Bool) : (writeErr n e k s).turns = s.turns := rfl

/-! ### otherActor -/

@[simp] theorem otherActor_reg (a b : Byte) : (otherActor a b s).reg = s.reg := rfl
@[simp] theorem otherActor_bits (a b : Byte) : (otherActor a b s).bits = s.bits := rfl
@[simp] theorem otherActor_mask (a b : Byte) : (otherActor a b s).mask = s.mask := rfl
@[simp] theorem otherActor_me (a b : Byte) : (otherActor a b s).me = s.me := rfl
@[simp] theorem otherActor_func (a b : Byte) : (otherActor a b s).func = s.func := rfl
@[simp] theorem otherActor_val (a b : Byte) : (otherActor a b s).val = s.val := rfl
@[simp] theorem otherActor_cur (a b : Byte) : (otherActor a b s).cur = s.cur := rfl
@[simp] theorem otherActor_phase (a b : Byte) : (otherActor a b s).phase = s.phase := rfl
@[simp] theorem otherActor_op (a b : Byte) : (otherActor a b s).op = s.op := rfl
@[simp] theorem otherActor_outstanding (a b : Byte) : (otherActor a b s).outstanding = s.outstanding := rfl
@[simp] theorem otherActor_mem (a b : Byte) : (otherActor a b s).mem = s.mem.write a b := rfl
@[simp] theorem otherActor_commands (a b : Byte) : (otherActor a b s).commands = s.commands := rfl
@[simp] theorem otherActor_responses (a b : Byte) : (otherActor a b s).responses = s.responses := rfl
@[simp] theorem otherActor_trace (a b : Byte) : (otherActor a b s).trace = s.trace := rfl
@[simp] theorem otherActor_readAnswers (a b : Byte) : (otherActor a b s).readAnswers = s.readAnswers := rfl
@[simp] theorem otherActor_writeAnswers (a b : Byte) : (otherActor a b s).writeAnswers = s.writeAnswers := rfl
@[simp] theorem otherActor_turns (a b : Byte) : (otherActor a b s).turns = s.turns := rfl

end Sys2Proof.Machine
end

