-- ==== Sys2Proof/Laws/Ops.lean ====
section
/-! SUPPORT. What each shared operation can do, said once. -/

namespace Sys2Proof.Machine

open Sys2Proof.Config (TErr)

/-- The block waits: no answer has come, at this step or ever. -/
theorem readTransaction_waits {s : State} (h : s.readAnswers = [] ∨ ∃ rest, s.readAnswers = .wait :: rest) :
    readTransaction s = .next { s with readAnswers := s.readAnswers.tail, outstanding := true } := by
  rcases h with h | ⟨rest, h⟩ <;> simp [readTransaction, h]

/-- A read answered `Ok(b)`, the whole next state. -/
theorem readTransaction_ok {s : State} {b : Byte} {fx : Effects} {rest : List ReadAnswer}
    (h : s.readAnswers = .bytes [b] fx :: rest ∨ (s.readAnswers = .held fx :: rest ∧ b = heldByte s.mem s.reg)) :
    readTransaction s = .next { s with
      readAnswers := rest, outstanding := false, cur := b, phase := .write
      mem := s.mem.writes fx
      trace := s.trace ++ [.readBytes s.reg 1 (.ok b)] } := by
  rcases h with h | ⟨h, rfl⟩ <;> simp [readTransaction, h, readOk, endTransaction]

/-- A read answered `Err(e)`, the whole next state. -/
theorem readTransaction_err {s : State} {e : TErr} {fx : Effects} {rest : List ReadAnswer}
    (h : s.readAnswers = .err e fx :: rest) :
    readTransaction s = .next { s with
      readAnswers := rest, outstanding := false, phase := .idle
      mem := s.mem.writes fx
      trace := s.trace ++ [.readBytes s.reg 1 (.err e)]
      responses := s.responses ++ [⟨0x80000000#32, .terr e⟩] } := by
  simp [readTransaction, h, readErr, raise, endTransaction, respond, transportError_response]

/-- A read answered by a number of bytes other than one stops the step. -/
theorem readTransaction_malformed {s : State} {bs : List Byte} {fx : Effects} {rest : List ReadAnswer}
    (h : s.readAnswers = .bytes bs fx :: rest) (hl : bs.length ≠ 1) : readTransaction s = .fault .readLength := by
  match bs, hl with
  | [], _ => simp [readTransaction, h]
  | _ :: _ :: _, _ => simp [readTransaction, h]

/-- The four things a read transaction can find; each has its lemma above. -/
theorem readAnswers_cases (s : State) :
    (s.readAnswers = [] ∨ ∃ rest, s.readAnswers = .wait :: rest) ∨
    (∃ b fx rest, s.readAnswers = .bytes [b] fx :: rest ∨ (s.readAnswers = .held fx :: rest ∧ b = heldByte s.mem s.reg)) ∨
    (∃ e fx rest, s.readAnswers = .err e fx :: rest) ∨
    (∃ bs fx rest, s.readAnswers = .bytes bs fx :: rest ∧ bs.length ≠ 1) := by
  rcases h : s.readAnswers with _ | ⟨⟨bs, fx⟩ | fx | ⟨e, fx⟩ | _, rest⟩
  · exact .inl (.inl rfl)
  · by_cases hl : bs.length = 1
    · obtain ⟨b, rfl⟩ := List.length_eq_one_iff.1 hl
      exact .inr (.inl ⟨b, fx, rest, .inl rfl⟩)
    · exact .inr (.inr (.inr ⟨bs, fx, rest, rfl, hl⟩))
  · exact .inr (.inl ⟨_, fx, rest, .inr ⟨rfl, rfl⟩⟩)
  · exact .inr (.inr (.inl ⟨e, fx, rest, rfl⟩))
  · exact .inl (.inr ⟨rest, rfl⟩)

/-- The block waits: no answer has come, at this step or ever. -/
theorem writeTransaction_waits {s : State} (n : Byte) (h : s.writeAnswers = [] ∨ ∃ rest, s.writeAnswers = .wait :: rest) :
    writeTransaction n s = .next { s with writeAnswers := s.writeAnswers.tail, outstanding := true } := by
  rcases h with h | ⟨rest, h⟩ <;> simp [writeTransaction, h]

/-- A write answered `Ok`, the whole next state. -/
theorem writeTransaction_ok {s : State} {n : Byte} {took : Bool} {fx : Effects} {rest : List WriteAnswer}
    (h : s.writeAnswers = .ok took fx :: rest) :
    writeTransaction n s = .next { s with
      writeAnswers := rest, outstanding := false, phase := .idle
      mem := (s.mem.takes took s.reg n).writes fx
      trace := s.trace ++ [.writeBytes s.reg [n] .ok]
      responses := s.responses ++ [⟨0x00000000#32, .none⟩] } := by
  simp [writeTransaction, h, writeOk, endTransaction, respond, ok_response]

/-- A write answered `Err(e)`, the whole next state. -/
theorem writeTransaction_err {s : State} {n : Byte} {e : TErr} {took : Bool} {rest : List WriteAnswer}
    (h : s.writeAnswers = .err e took :: rest) :
    writeTransaction n s = .next { s with
      writeAnswers := rest, outstanding := false, phase := .idle
      mem := s.mem.takes took s.reg n
      trace := s.trace ++ [.writeBytes s.reg [n] (.err e)]
      responses := s.responses ++ [⟨0x80000000#32, .terr e⟩] } := by
  simp [writeTransaction, h, writeErr, raise, endTransaction, respond, transportError_response]

/-- The three things a write transaction can find; each has its lemma above. -/
theorem writeAnswers_cases (s : State) :
    (s.writeAnswers = [] ∨ ∃ rest, s.writeAnswers = .wait :: rest) ∨
    (∃ took fx rest, s.writeAnswers = .ok took fx :: rest) ∨ (∃ e took rest, s.writeAnswers = .err e took :: rest) := by
  rcases h : s.writeAnswers with _ | ⟨⟨k, fx⟩ | ⟨e, k⟩ | _, rest⟩
  · exact .inl (.inl rfl)
  · exact .inr (.inl ⟨k, fx, rest, rfl⟩)
  · exact .inr (.inr ⟨e, k, rest, rfl⟩)
  · exact .inl (.inr ⟨rest, rfl⟩)

@[simp] theorem bitUpdate_idle {s : State} (a : State) (n : Byte) (h : s.phase = .idle) :
    bitUpdate a n s = .next a := by simp [bitUpdate, h]

@[simp] theorem bitUpdate_read {s : State} (a : State) (n : Byte) (h : s.phase = .read) :
    bitUpdate a n s = readTransaction s := by simp [bitUpdate, h]

@[simp] theorem bitUpdate_write {s : State} (a : State) (n : Byte) (h : s.phase = .write) :
    bitUpdate a n s = writeTransaction n s := by simp [bitUpdate, h]

/-- A converter answers its raw value, or InvalidArgument with the quantity and the func code. -/
theorem convert_cases (f : Field) (v : Int) (s : State) :
    (∃ raw, encodeQuantity f v = some raw ∧
      convert f v s = respond (okResponse (raw.setWidth 16) .none) { s with val := v, func := fieldFunc f }) ∨
    (encodeQuantity f v = none ∧
      convert f v s = raise (.invalidArgument (valField v) (fieldFunc f)) { s with val := v, func := fieldFunc f }) := by
  unfold convert
  cases h : encodeQuantity f v with
  | some raw => exact .inl ⟨raw, rfl, by simp [h]⟩
  | none => exact .inr ⟨rfl, by simp [h]⟩

/-- What a reset leaves (R152). -/
theorem resetBlock_cases (took : Bool) (s : State) :
    ((s.outstanding = false ∨ s.phase = .idle) ∧
      resetBlock took s = { s with phase := .idle, outstanding := false }) ∨
    (s.outstanding = true ∧ s.phase = .read ∧
      resetBlock took s =
        { s with phase := .idle, outstanding := false, trace := s.trace ++ [.readBytes s.reg 1 .abandoned] }) ∨
    (s.outstanding = true ∧ s.phase = .write ∧
      resetBlock took s =
        { s with
          phase := .idle
          outstanding := false
          trace := s.trace ++ [.writeBytes s.reg [newByte s] .abandoned]
          mem := s.mem.takes took s.reg (newByte s) }) := by
  cases ho : s.outstanding <;> cases hp : s.phase <;>
    simp [resetBlock, abandonTransaction, ho, hp, endTransaction]

end Sys2Proof.Machine
end

