-- ==== Sys2Proof/Laws/PerInstr.lean ====
section
/-! SUPPORT. A family of statements per command: the command's word fits a row of the opcode map (R65, R72). -/

namespace Sys2Proof.Laws.EncodeFits

/-- The encoding of the command has the fixed bits of a row of R65. -/
def Statement (i : Instr) : Prop := ∃ r ∈ rows, r.fits (encode i) = true

theorem name (reg : Byte) : Statement (.name reg) :=
  ⟨rows[0], by simp [rows], by rw [fits_iff]; exact formatN_fixed _ _⟩

theorem convDcdc (val : Int) : Statement (.convDcdc val) :=
  ⟨rows[1], by simp [rows], by rw [fits_iff]; exact formatC_fixed _ _ _⟩

theorem convLdo3 (val : Int) : Statement (.convLdo3 val) :=
  ⟨rows[2], by simp [rows], by rw [fits_iff]; exact formatC_fixed _ _ _⟩

theorem convLdo2 (val : Int) : Statement (.convLdo2 val) :=
  ⟨rows[3], by simp [rows], by rw [fits_iff]; exact formatC_fixed _ _ _⟩

theorem convChgv (val : Int) : Statement (.convChgv val) :=
  ⟨rows[4], by simp [rows], by rw [fits_iff]; exact formatC_fixed _ _ _⟩

theorem convChgi (val : Int) : Statement (.convChgi val) :=
  ⟨rows[5], by simp [rows], by rw [fits_iff]; exact formatC_fixed _ _ _⟩

theorem decDcdc (byte : Byte) : Statement (.decDcdc byte) :=
  ⟨rows[6], by simp [rows], by rw [fits_iff]; exact formatD_fixed _ _ _⟩

theorem decLdo3 (byte : Byte) : Statement (.decLdo3 byte) :=
  ⟨rows[7], by simp [rows], by rw [fits_iff]; exact formatD_fixed _ _ _⟩

theorem decLdo2 (byte : Byte) : Statement (.decLdo2 byte) :=
  ⟨rows[8], by simp [rows], by rw [fits_iff]; exact formatD_fixed _ _ _⟩

theorem decChgv (byte : Byte) : Statement (.decChgv byte) :=
  ⟨rows[9], by simp [rows], by rw [fits_iff]; exact formatD_fixed _ _ _⟩

theorem decChgi (byte : Byte) : Statement (.decChgi byte) :=
  ⟨rows[10], by simp [rows], by rw [fits_iff]; exact formatD_fixed _ _ _⟩

theorem setbits (reg bits mask : Byte) : Statement (.setbits reg bits mask) :=
  ⟨rows[11], by simp [rows], by rw [fits_iff]; exact formatB_fixed _ _ _ _ _⟩

theorem setbitsD (reg bits : Byte) : Statement (.setbitsD reg bits) :=
  ⟨rows[12], by simp [rows], by rw [fits_iff]; exact formatB_fixed_no_mask _ _ _ _⟩

theorem clrbits (reg bits : Byte) : Statement (.clrbits reg bits) :=
  ⟨rows[13], by simp [rows], by rw [fits_iff]; exact formatB_fixed_no_mask _ _ _ _⟩

end Sys2Proof.Laws.EncodeFits
end

