-- ==== Sys2Proof/Laws/Step.lean ====
section
/-! SUPPORT. What a step can do, said once: whose turn it is, and the block's step in each phase. -/

namespace Sys2Proof.Machine

@[simp] theorem step_no_turn {s : State} (h : s.turns = []) : step s = blockStep s := by simp [step, h]

theorem step_block {s : State} {ts : List Turn} (h : s.turns = .block :: ts) :
    step s = blockStep { s with turns := ts } := by simp [step, h]

theorem step_other {s : State} {a b : Byte} {ts : List Turn} (h : s.turns = .other a b :: ts) :
    step s = .next (otherActor a b { s with turns := ts }) := by simp [step, h]

theorem step_reset {s : State} {took : Bool} {ts : List Turn} (h : s.turns = .reset took :: ts) :
    step s = .next (resetBlock took { s with turns := ts }) := by simp [step, h]

theorem afterTurn_of_no_turn {s : State} (h : s.turns = []) : afterTurn s = s := by
  unfold afterTurn; cases s; simp_all

/-- When the block moves, the step is the block's step once the turn is taken. -/
theorem step_of_blockMoves {s : State} (h : BlockMoves s) : step s = blockStep (afterTurn s) := by
  rcases h with h | ⟨ts, h⟩
  · rw [step_no_turn h, afterTurn_of_no_turn h]
  · rw [step_block h]; simp [afterTurn, h]

/-- Every step is the block's, another actor's or a reset. -/
theorem step_cases (s : State) :
    (BlockMoves s ∧ step s = blockStep (afterTurn s)) ∨
    (∃ a b ts, s.turns = .other a b :: ts ∧ step s = .next (otherActor a b (afterTurn s))) ∨
    (∃ took ts, s.turns = .reset took :: ts ∧ step s = .next (resetBlock took (afterTurn s))) := by
  rcases h : s.turns with _ | ⟨_ | ⟨a, b⟩ | took, ts⟩
  · exact .inl ⟨.inl h, step_of_blockMoves (.inl h)⟩
  · exact .inl ⟨.inr ⟨ts, h⟩, step_of_blockMoves (.inr ⟨ts, h⟩)⟩
  · exact .inr (.inl ⟨a, b, ts, rfl, by rw [step_other h]; simp [afterTurn, h]⟩)
  · exact .inr (.inr ⟨took, ts, rfl, by rw [step_reset h]; simp [afterTurn, h]⟩)

theorem run_next {s t : State} (n : Nat) (h : step s = .next t) : run (n + 1) s = run n t := by simp [run, h]

/-- The turns of other actors, all at once: their bytes are left and nothing else changes. -/
theorem run_others (ps : List (Byte × Byte)) (s : State) (ts : List Turn) (n : Nat) (h : s.turns = others ps ++ ts) :
    run (ps.length + n) s = run n { s with turns := ts, mem := s.mem.writes ps } := by
  induction ps generalizing s with
  | nil => simp [others] at h; simp [← h]
  | cons p ps ih =>
    simp only [others, List.map_cons, List.cons_append] at h
    rw [show (p :: ps).length + n = (ps.length + n) + 1 by simp; omega, run_next _ (step_other h), ih _ rfl]
    rfl

/-- The byte the block writes is the f of the accepted command, as claims write it. -/
theorem newByte_eq_writtenByte (s : State) : newByte s = writtenByte s.op s.cur s.bits s.mask := by
  have h (m : Byte) : 0xFF#8 - m = ~~~m := by revert m; decide
  cases ho : s.op <;>
    simp [newByte, writtenByte, ho, h, setbitsNew, setbitsDNew, clrbitsNew, setByte, clearByte]

theorem phase_cases (s : State) : s.phase = .idle ∨ s.phase = .read ∨ s.phase = .write := by
  cases s.phase <;> simp

theorem blockStep_waits {s : State} (hp : s.phase = .idle) (hc : s.commands = []) : blockStep s = .next s := by
  simp [blockStep, hp, takeWord, hc]

theorem blockStep_accepts {s : State} {w : Word} {ws : List Word} {i : Instr} (hp : s.phase = .idle)
    (hc : s.commands = w :: ws) (hd : decode w = .ok i) : blockStep s = exec i { s with commands := ws } := by
  simp [blockStep, hp, takeWord, hc, hd]

theorem blockStep_illegal {s : State} {w : Word} {ws : List Word} {x : Illegal} (hp : s.phase = .idle)
    (hc : s.commands = w :: ws) (hd : decode w = .error x) :
    blockStep s = .next (illegalWord { s with commands := ws }) := by
  simp [blockStep, hp, takeWord, hc, hd]

/-- In READ the accepted command makes its read transaction, whichever command it is. -/
theorem blockStep_read {s : State} (hp : s.phase = .read) : blockStep s = readTransaction s := by
  cases h : s.op <;> simp [blockStep, hp, inFlight, h, exec, execSetbits, execSetbitsD, execClrbits]

/-- In WRITE the accepted command writes its f of the byte read. -/
theorem blockStep_write {s : State} (hp : s.phase = .write) : blockStep s = writeTransaction (newByte s) s := by
  cases h : s.op <;>
    simp [blockStep, hp, inFlight, h, exec, execSetbits, execSetbitsD, execClrbits, newByte]

/-- The block's step, by phase and by what the ports show. -/
theorem blockStep_cases (s : State) :
    (s.phase = .idle ∧ s.commands = [] ∧ blockStep s = .next s) ∨
    (∃ w ws i, s.phase = .idle ∧ s.commands = w :: ws ∧ decode w = .ok i ∧
      blockStep s = exec i { s with commands := ws }) ∨
    (∃ w ws x, s.phase = .idle ∧ s.commands = w :: ws ∧ decode w = .error x ∧
      blockStep s = .next (illegalWord { s with commands := ws })) ∨
    (s.phase = .read ∧ blockStep s = readTransaction s) ∨
    (s.phase = .write ∧ blockStep s = writeTransaction (newByte s) s) := by
  rcases phase_cases s with hp | hp | hp
  · rcases hc : s.commands with _ | ⟨w, ws⟩
    · exact .inl ⟨hp, rfl, blockStep_waits hp hc⟩
    · rcases hd : decode w with x | i
      · exact .inr (.inr (.inl ⟨w, ws, x, hp, rfl, hd, blockStep_illegal hp hc hd⟩))
      · exact .inr (.inl ⟨w, ws, i, hp, rfl, hd, blockStep_accepts hp hc hd⟩)
  · exact .inr (.inr (.inr (.inl ⟨hp, blockStep_read hp⟩)))
  · exact .inr (.inr (.inr (.inr ⟨hp, blockStep_write hp⟩)))

/-- A command accepted in IDLE answers a next state: one of a lookup, a converter, a decoder or an acceptance. -/
theorem exec_idle_cases (i : Instr) {s : State} (hp : s.phase = .idle) :
    (∃ a, i = .name a ∧ exec i s = .next (respond (nameResponse (regmap a)) { s with reg := a })) ∨
    (∃ f v, exec i s = .next (convert f v s) ∧
      ((f = .dcdc ∧ i = .convDcdc v) ∨ (f = .ldo3 ∧ i = .convLdo3 v) ∨ (f = .ldo2 ∧ i = .convLdo2 v) ∨
        (f = .chgv ∧ i = .convChgv v) ∨ (f = .chgi ∧ i = .convChgi v))) ∨
    (∃ f b, exec i s = .next (decodeField f b s) ∧
      ((f = .dcdc ∧ i = .decDcdc b) ∨ (f = .ldo3 ∧ i = .decLdo3 b) ∨ (f = .ldo2 ∧ i = .decLdo2 b) ∨
        (f = .chgv ∧ i = .decChgv b) ∨ (f = .chgi ∧ i = .decChgi b))) ∨
    (∃ a b m, i = .setbits a b m ∧ exec i s = .next { acceptUpdate .set a b m s with me := true }) ∨
    (∃ a b, i = .setbitsD a b ∧ exec i s = .next { acceptUpdate .setDefault a b b s with me := false }) ∨
    (∃ a b, i = .clrbits a b ∧ exec i s = .next (acceptUpdate .clear a b b s)) := by
  cases i with
  | name a => exact .inl ⟨a, rfl, rfl⟩
  | convDcdc v => exact .inr (.inl ⟨.dcdc, v, rfl, by simp⟩)
  | convLdo3 v => exact .inr (.inl ⟨.ldo3, v, rfl, by simp⟩)
  | convLdo2 v => exact .inr (.inl ⟨.ldo2, v, rfl, by simp⟩)
  | convChgv v => exact .inr (.inl ⟨.chgv, v, rfl, by simp⟩)
  | convChgi v => exact .inr (.inl ⟨.chgi, v, rfl, by simp⟩)
  | decDcdc b => exact .inr (.inr (.inl ⟨.dcdc, b, rfl, by simp⟩))
  | decLdo3 b => exact .inr (.inr (.inl ⟨.ldo3, b, rfl, by simp⟩))
  | decLdo2 b => exact .inr (.inr (.inl ⟨.ldo2, b, rfl, by simp⟩))
  | decChgv b => exact .inr (.inr (.inl ⟨.chgv, b, rfl, by simp⟩))
  | decChgi b => exact .inr (.inr (.inl ⟨.chgi, b, rfl, by simp⟩))
  | setbits a b m => exact .inr (.inr (.inr (.inl ⟨a, b, m, rfl, by simp [exec, execSetbits, hp]⟩)))
  | setbitsD a b => exact .inr (.inr (.inr (.inr (.inl ⟨a, b, rfl, by simp [exec, execSetbitsD, hp]⟩))))
  | clrbits a b => exact .inr (.inr (.inr (.inr (.inr ⟨a, b, rfl, by simp [exec, execClrbits, hp]⟩))))

end Sys2Proof.Machine
end

