-- ==== Sys2Proof/Tests/Slice0.lean ====
section
/-! SUPPORT. The model's own tests: the refused ill-formed commands, words written out from the formats of R60 and the map of
R65, one step at a time from the vectors of spec/95_test_vectors.md, and for every statement with hypotheses a state and
operands that meet them. Expected values come from the vectors, never from the model. -/

namespace Sys2Proof.Tests

open Sys2Proof Sys2Proof.Machine

/-! ### Ill-formed commands -/

/-- 32768 and -32769 are no 16-bit quantities (R62). -/
theorem test_convDcdc_wf : (Instr.convDcdc 32768).wf = false ∧ (Instr.convDcdc (-32769)).wf = false := by decide
theorem test_convLdo3_wf : (Instr.convLdo3 32768).wf = false ∧ (Instr.convLdo3 (-32769)).wf = false := by decide
theorem test_convLdo2_wf : (Instr.convLdo2 32768).wf = false ∧ (Instr.convLdo2 (-32769)).wf = false := by decide
theorem test_convChgv_wf : (Instr.convChgv 32768).wf = false ∧ (Instr.convChgv (-32769)).wf = false := by decide
theorem test_convChgi_wf : (Instr.convChgi 32768).wf = false ∧ (Instr.convChgi (-32769)).wf = false := by decide
theorem test_bounds_wf : (Instr.convDcdc 32767).wf = true ∧ (Instr.convChgi (-32768)).wf = true := by decide

/-! ### Decoding: op, then the fields of the format in the order of R60 -/

theorem test_decode_name : decode 0b0001_0000_00101000_0000000000000000#32 = .ok (.name 0x28#8) := by decide
theorem test_decode_convDcdc : decode 0b0010_0000_00000000_0000010011100010#32 = .ok (.convDcdc 1250) := by decide
/-- V1: a quantity is sign-extended. -/
theorem test_decode_negative : decode 0x2000FFFF#32 = .ok (.convDcdc (-1)) := by decide
theorem test_decode_convLdo3 : decode 0b0010_0001_00000000_0000110011100100#32 = .ok (.convLdo3 3300) := by decide
theorem test_decode_convLdo2 : decode 0b0010_0010_00000000_0000100111000100#32 = .ok (.convLdo2 2500) := by decide
theorem test_decode_convChgv : decode 0b0010_0011_00000000_0001000000000100#32 = .ok (.convChgv 4100) := by decide
theorem test_decode_convChgi : decode 0b0010_0100_00000000_0000010100101000#32 = .ok (.convChgi 1320) := by decide
theorem test_decode_decDcdc : decode 0b0011_0000_0000000000000000_10010110#32 = .ok (.decDcdc 0x96#8) := by decide
theorem test_decode_decLdo3 : decode 0b0011_0001_0000000000000000_11001111#32 = .ok (.decLdo3 0xCF#8) := by decide
theorem test_decode_decLdo2 : decode 0b0011_0010_0000000000000000_11001111#32 = .ok (.decLdo2 0xCF#8) := by decide
theorem test_decode_decChgv : decode 0b0011_0011_0000000000000000_10011111#32 = .ok (.decChgv 0x9F#8) := by decide
theorem test_decode_decChgi : decode 0b0011_0100_0000000000000000_11110101#32 = .ok (.decChgi 0xF5#8) := by decide
theorem test_decode_setbits :
    decode 0b0100_000_1_00101000_11110000_01110000#32 = .ok (.setbits 0x28#8 0x70#8 0xF0#8) := by decide
theorem test_decode_setbitsD :
    decode 0b0100_000_0_00010010_00000000_00001000#32 = .ok (.setbitsD 0x12#8 0x08#8) := by decide
theorem test_decode_clrbits :
    decode 0b0101_000_0_00010010_00000000_00001000#32 = .ok (.clrbits 0x12#8 0x08#8) := by decide

/-- The illegal words of V1: a reserved bit, a reserved func, a reserved op. -/
theorem test_decode_reserved_bits :
    [0x10280001#32, 0x11280000#32, 0x20010000#32, 0x30000100#32].map decode =
      List.replicate 4 (.error .illegalCommand) := by decide
theorem test_decode_reserved_bits_b :
    [0x40120F08#32, 0x43120008#32, 0x50120108#32, 0x51120008#32].map decode =
      List.replicate 4 (.error .illegalCommand) := by decide
theorem test_decode_reserved_codes :
    [0x25000000#32, 0x35000000#32, 0x00000000#32, 0x60000000#32, 0xFFFFFFFF#32].map decode =
      List.replicate 5 (.error .illegalCommand) := by decide

theorem test_decode_table_word :
    decodeTableWord 32 0x41280F0F = some (.setbits 0x28#8 0x0F#8 0x0F#8) ∧ decodeTableWord 32 0x25000000 = none := by decide

/-! ### One step -/

/-- A state in which every latch holds something, so that a stale latch would show. -/
def busy : State :=
  { State.reset with
    reg := 0x55#8, bits := 0x5A#8, mask := 0xA5#8, me := true, func := 3#4, val := -7, cur := 0x3C#8
    mem := [(0x12, 0x45#8), (0x28, 0xC5#8)] }

/-- A transport error: the one token that every choice of TERR has. -/
def aToken : Config.TErr := ⟨0, .inl rfl⟩

/-- A name, likewise. -/
def aName : Config.RegName := ⟨0, .inl rfl⟩

/-- The response words after an outcome. -/
def words : Result → Option (List Word)
  | .next t => some (t.responses.map (·.word))
  | _ => none

/-- The transactions after an outcome. -/
def shown : Result → Option (List Transaction)
  | .next t => some t.trace
  | _ => none

/-- The byte at an address after an outcome. -/
def byteAt (a : Byte) : Result → Option (Option Byte)
  | .next t => some (t.mem.read a)
  | _ => none

/-- Whether the outcome is a next state with this PHASE. -/
def inPhase (p : Phase) : Result → Bool
  | .next t => t.phase == p
  | _ => false

/-- V2, an entry and no entry. -/
theorem test_name_entry (d : Config.Descriptor) : nameResponse (some d) = ⟨0x00000001#32, .name (some d.name)⟩ := by
  simp only [nameResponse, okResponse, Option.isSome_some, if_true, Option.map_some]; congr 1
theorem test_name_absent : nameResponse none = ⟨0x00000000#32, .name none⟩ := rfl

/-- V3. -/
theorem test_convDcdc :
    [700, 724, 725, 3899].map (fun v => words (exec (.convDcdc v) busy)) =
      [some [0x00000000#32], some [0x00000000#32], some [0x00000001#32], some [0x0000007F#32]] := by decide
theorem test_convDcdc_fails :
    [699, 3900, -1, -32768].map (fun v => words (exec (.convDcdc v) busy)) =
      [some [0x400002BB#32], some [0x40000F3C#32], some [0x4000FFFF#32], some [0x40008000#32]] := by decide

/-- V4. -/
theorem test_convLdo3 :
    [1799, 1800, 1899, 3399, 3400].map (fun v => words (exec (.convLdo3 v) busy)) =
      [some [0x44000707#32], some [0x00000000#32], some [0x00000000#32], some [0x0000000F#32], some [0x44000D48#32]] := by
  decide
theorem test_convLdo2 :
    [1799, 1800, 1900, 3399, 3400].map (fun v => words (exec (.convLdo2 v) busy)) =
      [some [0x48000707#32], some [0x00000000#32], some [0x00000010#32], some [0x000000F0#32], some [0x48000D48#32]] := by
  decide

/-- V5. -/
theorem test_convChgv :
    [4100, 4150, 4200, 4360].map (fun v => words (exec (.convChgv v) busy)) =
      [some [0x00000000#32], some [0x00000020#32], some [0x00000040#32], some [0x00000060#32]] := by decide
theorem test_convChgv_fails :
    [4099, 4125, 4361, 0].map (fun v => words (exec (.convChgv v) busy)) =
      [some [0x4C001003#32], some [0x4C00101D#32], some [0x4C001109#32], some [0x4C000000#32]] := by decide

/-- V6. -/
theorem test_convChgi :
    [100, 190, 1299, 1320].map (fun v => words (exec (.convChgi v) busy)) =
      [some [0x00000000#32], some [0x00000001#32], some [0x0000000E#32], some [0x0000000F#32]] := by decide
theorem test_convChgi_fails :
    [99, 1321].map (fun v => words (exec (.convChgi v) busy)) = [some [0x50000063#32], some [0x50000529#32]] := by decide

/-- V7. -/
theorem test_decDcdc :
    [0x00#8, 0x16#8, 0x80#8, 0xFF#8].map (fun b => words (exec (.decDcdc b) busy)) =
      [some [0x000002BC#32], some [0x000004E2#32], some [0x000002BC#32], some [0x00000F23#32]] := by decide
theorem test_decLdo3 :
    [0x07#8, 0xCF#8, 0xF0#8].map (fun b => words (exec (.decLdo3 b) busy)) =
      [some [0x000009C4#32], some [0x00000CE4#32], some [0x00000708#32]] := by decide
theorem test_decLdo2 :
    [0xCF#8, 0x0F#8, 0xF0#8].map (fun b => words (exec (.decLdo2 b) busy)) =
      [some [0x00000BB8#32], some [0x00000708#32], some [0x00000CE4#32]] := by decide
theorem test_decChgv :
    [0x20#8, 0x40#8, 0x60#8, 0x9F#8].map (fun b => words (exec (.decChgv b) busy)) =
      [some [0x00001036#32], some [0x00001068#32], some [0x00001108#32], some [0x00001004#32]] := by decide
theorem test_decChgi :
    [0x00#8, 0x0F#8, 0xF5#8].map (fun b => words (exec (.decChgi b) busy)) =
      [some [0x00000064#32], some [0x00000514#32], some [0x000001F4#32]] := by decide

/-- P1, command 2: accepted with its operands latched, the read of 0x28 answered by storage, the write of 0xCF. -/
theorem test_setbits_read :
    shown (exec (.setbits 0x28#8 0x0F#8 0x0F#8) { busy with phase := .read, reg := 0x28#8, readAnswers := [.held []] }) =
      some [.readBytes 0x28#8 1 (.ok 0xC5#8)] := by decide
/-- V8, rows 4 and 6: 0x37, 0x70, 0xF0 gives 0x77, and bits outside the mask are set. -/
theorem test_setbits_write :
    byteAt 0x28#8 (exec (.setbits 0x28#8 0x70#8 0xF0#8)
      { busy with phase := .write, reg := 0x28#8, bits := 0x70#8, mask := 0xF0#8, cur := 0x37#8, writeAnswers := [.ok true []] }) =
      some (some 0x77#8) ∧
    setByte 0x00#8 0x0F#8 0x1F#8 = 0x1F#8 := by decide

/-- V8: the default mask is the bits, and ME is 0. -/
theorem test_setbitsD_accept :
    exec (.setbitsD 0x40#8 0x00#8) busy = .next { busy with
      op := .setDefault, reg := 0x40#8, bits := 0x00#8, mask := 0x00#8, me := false, phase := .read } := rfl
/-- P1, command 3: 0x45 becomes 0x4D. -/
theorem test_setbitsD_write :
    byteAt 0x12#8 (exec (.setbitsD 0x12#8 0x08#8)
      { busy with phase := .write, reg := 0x12#8, bits := 0x08#8, mask := 0x08#8, cur := 0x45#8, writeAnswers := [.ok true []] }) =
      some (some 0x4D#8) := by decide

/-- V10, row 3: a failed read ends the command. -/
theorem test_clrbits_read_fails :
    words (exec (.clrbits 0x12#8 0x08#8) { busy with phase := .read, reg := 0x12#8, readAnswers := [.err aToken []] }) =
      some [0x80000000#32] ∧
    inPhase .idle (exec (.clrbits 0x12#8 0x08#8) { busy with phase := .read, reg := 0x12#8, readAnswers := [.err aToken []] }) =
      true := by decide
/-- V9, rows 1 and 2. -/
theorem test_clrbits_write :
    byteAt 0x12#8 (exec (.clrbits 0x12#8 0x08#8)
      { busy with phase := .write, reg := 0x12#8, bits := 0x08#8, mask := 0x08#8, cur := 0x4D#8, writeAnswers := [.ok true []] }) =
      some (some 0x45#8) ∧
    clearByte 0xFF#8 0x0F#8 = 0xF0#8 := by decide

/-- P5, row 5: IllegalCommand and no transaction. -/
theorem test_illegal_word :
    words (step { busy with commands := [0x40120F08#32] }) = some [0xC0000000#32] ∧
    shown (step { busy with commands := [0x40120F08#32] }) = some [] := by decide

/-- A read answered with two bytes is given no meaning (R34). -/
theorem test_malformed_reply :
    step { busy with phase := .read, readAnswers := [.bytes [0x00#8, 0x01#8] []] } = .fault .readLength := rfl

/-- The next step after `withFetchWord` runs the word, from reset and from a state with a command in progress. -/
theorem test_fetch_word :
    words (step (State.reset.withFetchWord 32 0x200004E2)) = some [0x00000016#32] ∧
    words (step (State.withFetchWord { busy with phase := .write, turns := [.other 0#8 0#8] } 32 0x30000096)) =
      some [0x000004E2#32] := by decide

theorem test_reset_memory_wf : State.reset.mem.wf := by decide

/-- A write keeps one entry per address, in order. -/
theorem test_memory_order :
    Memory.write (Memory.write (Memory.write [] 0x28#8 0x01#8) 0x12#8 0x02#8) 0x28#8 0x03#8 =
      [(0x12, 0x02#8), (0x28, 0x03#8)] := by decide

/-! ### States and operands that meet the hypotheses of the statements -/

/-- Reading, with a request out. -/
def reading : State :=
  { busy with phase := .read, op := .set, reg := 0x28#8, bits := 0x0F#8, mask := 0x0F#8, outstanding := true }

/-- Writing, with a request out. -/
def writing : State := { reading with phase := .write, cur := 0xC5#8 }

/-- About to run one command, with these answers. -/
def about (i : Instr) (r : ReadAnswer) (w : WriteAnswer) : State :=
  { busy with commands := [encode i], readAnswers := [r], writeAnswers := [w] }

def setNibble : Instr := .setbits 0x28#8 0x0F#8 0x0F#8

theorem witness_ResetAcceptsCommands :
    let s : State := { reading with turns := [.reset true], commands := [0x10280000#32] }
    decode 0x10280000#32 = .ok (.name 0x28#8) ∧ s.turns = .reset true :: [] ∧ s.commands = 0x10280000#32 :: [] ∧
    ∃ t, step s = .next t ∧ BlockMoves t :=
  ⟨by decide, rfl, rfl, _, rfl, .inl rfl⟩

/-- One state for each clause: a word, no word, and each of the three accepted commands in READ or WRITE. -/
theorem witness_StepRunsDecodedCommand :
    (BlockMoves (about setNibble (.held []) (.ok true [])) ∧ (about setNibble (.held []) (.ok true [])).phase = .idle ∧
      (about setNibble (.held []) (.ok true [])).commands = [encode setNibble] ∧ decode (encode setNibble) = .ok setNibble) ∧
    (BlockMoves { busy with turns := [.block] } ∧ busy.phase = .idle ∧ busy.commands = []) ∧
    (BlockMoves reading ∧ reading.phase ≠ .idle ∧ reading.op = .set) ∧
    (BlockMoves { writing with op := .setDefault } ∧ writing.phase ≠ .idle) ∧
    (BlockMoves { writing with op := .clear } ∧ { writing with op := .clear }.op = .clear) :=
  ⟨⟨.inl rfl, rfl, rfl, by decide⟩, ⟨.inr ⟨[], rfl⟩, rfl, rfl⟩, ⟨.inl rfl, by decide, rfl⟩, ⟨.inl rfl, by decide⟩,
    ⟨.inl rfl, rfl⟩⟩

theorem witness_EncodedCommandDecodes : (Instr.convDcdc (-32768)).wf = true := by decide

theorem witness_DecodedWordIsItsEncoding : decode 0x24007FFF#32 = .ok (.convChgi 32767) := by decide

theorem witness_IllegalWordsAreAnswered :
    let s : State := { busy with commands := [0x00000000#32, 0x10280000#32] }
    BlockMoves s ∧ s.phase = .idle ∧ s.commands = 0x00000000#32 :: [0x10280000#32] ∧
    decode 0x00000000#32 = .error .illegalCommand ∧ BlockMoves (afterTurn s) ∧
    decode 0x10280000#32 = .ok (.name 0x28#8) :=
  ⟨.inl rfl, rfl, rfl, by decide, .inl rfl, by decide⟩

/-- The premise of NAME, of the five converters and of the five decoders is PHASE IDLE. -/
theorem witness_pure_commands : busy.phase = .idle := rfl

theorem witness_PureCommandsDependOnOperandsOnly :
    updateOf (.decLdo3 0xFF#8) = none ∧ (∀ reg, Instr.decLdo3 0xFF#8 ≠ .name reg) ∧
    updateOf (.convChgi 1321) = none ∧ (∀ reg, Instr.convChgi 1321 ≠ .name reg) :=
  ⟨rfl, fun _ => by simp, rfl, fun _ => by simp⟩

/-- NAME with an entry and without one: an address of the register map is of one kind or the other. -/
theorem witness_NameLooksUpTheRegisterMap : (∃ d, regmap 0x28#8 = some d) ∨ regmap 0x28#8 = none := by
  cases regmap 0x28#8 with
  | none => exact .inr rfl
  | some d => exact .inl ⟨d, rfl⟩

/-- The ends of each domain, inside and outside. -/
theorem witness_converters :
    (700 ≤ (700 : Int) ∧ (700 : Int) < 3900) ∧ ¬ (700 ≤ (3900 : Int) ∧ (3900 : Int) < 3900) ∧
    (1800 ≤ (3399 : Int) ∧ (3399 : Int) < 3400) ∧ ¬ (1800 ≤ (1799 : Int) ∧ (1799 : Int) < 3400) ∧
    (100 ≤ (1320 : Int) ∧ (1320 : Int) ≤ 1320) ∧ ¬ (100 ≤ (1321 : Int) ∧ (1321 : Int) ≤ 1320) ∧
    ((4360 : Int) = 4100 ∨ (4360 : Int) = 4150 ∨ (4360 : Int) = 4200 ∨ (4360 : Int) = 4360) := by decide

/-- A step that answers InvalidArgument, and its premises. -/
theorem witness_InvalidArgumentExactlyOutOfDomain :
    let s : State := { busy with commands := [0x20000F3C#32] }
    (∃ t, step s = .next t) ∧ BlockMoves s ∧ s.phase = .idle ∧ s.commands = 0x20000F3C#32 :: [] ∧
    decode 0x20000F3C#32 = .ok (.convDcdc 3900) ∧ OutOfDomain (.convDcdc 3900) :=
  ⟨⟨_, rfl⟩, .inl rfl, rfl, rfl, by decide, .inr (by decide)⟩

theorem witness_EncodeAndDecodeAgree :
    linearOf .dcdc = some ⟨700, 3900, false, 700, 25⟩ ∧ encodeQuantity .dcdc 724 = some 0x00#8 ∧
    encodeQuantity .chgv 4360 = some 0x60#8 := by decide

theorem witness_ConverterResultsStayInFieldAndOrder :
    encodeQuantity .ldo2 1800 = some 0x00#8 ∧ encodeQuantity .ldo2 3399 = some 0xF0#8 ∧ (1800 : Int) ≤ 3399 := by decide

/-- An entry for 0x28 that R78 admits: if the catalogue holds it, the map does. -/
theorem witness_RegisterMapEntriesAreAdmissible :
    Descriptor.wf 0x28#8 ⟨aName, .readWrite,
      [⟨aName, 0x0F#8, some 0, .enumerated [0, 7, 15], []⟩, ⟨aName, 0xF0#8, some 4, .numeric, []⟩]⟩ = true := by decide

/-- The premises of the sequence, in READ and in WRITE, for each answer and for none. -/
theorem witness_bit_update_sequence :
    (ReadsOk { reading with readAnswers := [.bytes [0xC5#8] [(0x12#8, 0x00#8)]] } 0xC5#8 [(0x12#8, 0x00#8)] [] ∧
      ReadsOk { reading with readAnswers := [.held []] } 0xC5#8 [] [] ∧
      { reading with readAnswers := [.err aToken []] }.readAnswers = .err aToken [] :: [] ∧
      ReadWaits { reading with readAnswers := [.wait, .held []] } ∧ reading.phase = .read) ∧
    ({ writing with writeAnswers := [.ok false [(0x28#8, 0x00#8)]] }.writeAnswers = .ok false [(0x28#8, 0x00#8)] :: [] ∧
      { writing with writeAnswers := [.err aToken true] }.writeAnswers = .err aToken true :: [] ∧
      WriteWaits writing ∧ writing.phase = .write) :=
  ⟨⟨.inl rfl, .inr ⟨rfl, rfl⟩, rfl, .inr ⟨_, rfl⟩, rfl⟩, rfl, rfl, .inl rfl, rfl⟩

/-- One command of each of the three forms. -/
theorem witness_UpdatesRunTheSequence :
    updateOf setNibble = some (.set, 0x28#8, 0x0F#8, 0x0F#8) ∧
    updateOf (.setbitsD 0x12#8 0x08#8) = some (.setDefault, 0x12#8, 0x08#8, 0x08#8) ∧
    updateOf (.clrbits 0x12#8 0x08#8) = some (.clear, 0x12#8, 0x08#8, 0x08#8) := by decide

theorem witness_UpdateMakesOneReadAndOneWrite :
    let s := about setNibble (.held []) (.ok true [])
    updateOf setNibble = some (.set, 0x28#8, 0x0F#8, 0x0F#8) ∧ s.turns = [] ∧ s.phase = .idle ∧
    s.commands = encode setNibble :: [] ∧ s.readAnswers = .held [] :: [] ∧ 0xC5#8 = heldByte s.mem 0x28#8 ∧
    s.writeAnswers = .ok true [] :: [] := ⟨rfl, rfl, rfl, rfl, rfl, rfl, rfl⟩

theorem witness_FailedReadEndsTheCommand :
    let s := about (.clrbits 0x12#8 0x08#8) (.err aToken []) (.ok true [])
    updateOf (.clrbits 0x12#8 0x08#8) = some (.clear, 0x12#8, 0x08#8, 0x08#8) ∧ s.turns = [] ∧ s.phase = .idle ∧
    s.commands = [encode (.clrbits 0x12#8 0x08#8)] ∧ s.readAnswers = .err aToken [] :: [] := ⟨rfl, rfl, rfl, rfl, rfl⟩

/-- With WRITE_FAIL_NO_EFFECT and without it. -/
theorem witness_FailedWriteEndsTheCommand :
    let s := about setNibble (.bytes [0xC5#8] []) (.err aToken false)
    updateOf setNibble = some (.set, 0x28#8, 0x0F#8, 0x0F#8) ∧ s.turns = [] ∧ s.phase = .idle ∧
    s.commands = [encode setNibble] ∧ s.readAnswers = .bytes [0xC5#8] [] :: [] ∧
    s.writeAnswers = .err aToken false :: [] ∧ WriteFailNoEffect s.writeAnswers ∧
    ¬ WriteFailNoEffect (about setNibble (.held []) (.err aToken true)).writeAnswers := by
  refine ⟨rfl, rfl, rfl, rfl, rfl, rfl, fun e took h => ?_, fun h => ?_⟩
  · simp only [about, List.mem_singleton, WriteAnswer.err.injEq] at h; exact h.2
  · exact absurd (h aToken true (by simp [about])) (by decide)

theorem witness_TransportErrorExactlyOnErr :
    let s : State := { reading with readAnswers := [.err aToken []] }
    (∃ t, step s = .next t ∧ t.responses = s.responses ++ [⟨0x80000000#32, .terr aToken⟩]) ∧ BlockMoves s :=
  ⟨⟨_, rfl, by decide⟩, .inl rfl⟩

theorem witness_NothingFollowsAFailure :
    let s : State := { reading with readAnswers := [.err aToken []], turns := [.block, .other 0x28#8 0x00#8, .reset true] }
    (∃ t u, step s = .next t ∧ t.responses = s.responses ++ [⟨0x80000000#32, .terr aToken⟩] ∧ run 2 t = .next u) ∧
    s.commands = [] :=
  ⟨⟨_, _, rfl, by decide, rfl⟩, rfl⟩

theorem witness_SetFieldSetsOnlyItsField :
    encodeQuantity .ldo3 3300 = some 0x0F#8 ∧ encodeQuantity .ldo2 2500 = some 0x70#8 := by decide

theorem witness_PseudoCommandsAreEqual :
    (Instr.setbitsD 0x40#8 0x00#8 = .setbitsD 0x40#8 0x00#8 ∧ Instr.setbits 0x40#8 0x00#8 0x00#8 = .setbits 0x40#8 0x00#8 0x00#8) ∧
    busy.phase = .idle := ⟨⟨rfl, rfl⟩, rfl⟩

/-- Another actor writes register 0x12 before each of the block's six steps. -/
def sixGaps : List (List (Byte × Byte)) := List.replicate 6 [(0x12#8, 0x00#8)]

/-- The update twice, on a device that stores what is written to 0x28 and changes another register when it is. -/
def twice : State :=
  { busy with
    commands := [encode setNibble, encode setNibble], turns := blockAfterEach sixGaps
    readAnswers := [.held [], .held []], writeAnswers := [.ok true [(0x12#8, 0x01#8)], .ok true []] }

theorem witness_SameUpdateTwiceIsOnce :
    updateOf setNibble = some (.set, 0x28#8, 0x0F#8, 0x0F#8) ∧ twice.phase = .idle ∧
    twice.commands = encode setNibble :: encode setNibble :: [] ∧ sixGaps.length = 6 ∧
    twice.turns = blockAfterEach sixGaps ∧ ExclusiveAccess 0x28#8 twice.turns ∧
    twice.readAnswers = .held [] :: .held [] :: [] ∧
    twice.writeAnswers = .ok true [(0x12#8, 0x01#8)] :: .ok true [] :: [] := by
  refine ⟨rfl, rfl, rfl, rfl, rfl, fun b h => ?_, rfl, rfl⟩
  simp [twice, sixGaps, blockAfterEach, others] at h

/-- A list of answers each of which is storage at 0x28 keeps the premise as it is consumed. -/
theorem storageAt_of_answers {s : State} (hr : ∀ r ∈ s.readAnswers, r = .held [])
    (hw : ∀ w ∈ s.writeAnswers, (∀ p ∈ w.effects, p.1 ≠ 0x28#8) ∧ ∀ fx, w ≠ .ok false fx) : StorageAt 0x28#8 s := by
  refine fun _ => ⟨fun _ r rest h => ?_, fun _ w rest h => ?_⟩
  · rw [hr r (by simp [h])]
    exact ⟨by simp [ReadAnswer.effects], fun _ => ⟨rfl, by simp⟩⟩
  · have := hw w (by simp [h])
    exact ⟨this.1, fun _ => this.2⟩

/-- The remaining premise of SameUpdateTwiceIsOnce: STORAGE_REGISTER(0x28) along the whole run. -/
theorem witness_StorageRegister : StorageRegister 0x28#8 twice.turns.length twice := by
  intro k t hk h
  have hlen : twice.turns.length = 12 := rfl
  rw [hlen] at hk
  interval_cases k <;> cases h <;> refine storageAt_of_answers ?_ ?_ <;>
    simp [twice, WriteAnswer.effects, writeOk, readOk, endTransaction, respond, otherActor, acceptUpdate]

/-- P1 with a failed write and a failed read after it. -/
def fourCommands : List (Instr × Reply) :=
  [(.convLdo3 3300, .done 0#8 [] true []), (setNibble, .done 0xC5#8 [] true []),
    (.setbitsD 0x12#8 0x08#8, .writeFails 0x45#8 [] aToken false), (.clrbits 0x12#8 0x08#8, .readFails aToken [])]

theorem witness_CommandsTransactInOrder :
    let s : State := { busy with
      commands := fourCommands.map (fun u => encode u.1)
      readAnswers := [.bytes [0xC5#8] [], .bytes [0x45#8] [], .err aToken []], writeAnswers := [.ok true [], .err aToken false] }
    (∀ u ∈ fourCommands, u.1.wf = true) ∧ s.turns = [] ∧ s.phase = .idle ∧
    s.commands = fourCommands.map (fun u => encode u.1) ++ [] ∧
    s.readAnswers = fourCommands.flatMap (fun u => readsOf u.1 u.2) ++ [] ∧
    s.writeAnswers = fourCommands.flatMap (fun u => writesOf u.1 u.2) ++ [] :=
  ⟨by decide, rfl, rfl, by simp, rfl, rfl⟩

/-- Another actor changes 0x28 between the read and the write. -/
theorem witness_UpdateWritesOverConcurrentChange :
    0xC5#8 = heldByte ((busy.mem.writes []).writes []) 0x28#8 ∧
    let s : State := { about setNibble (.held []) (.ok true []) with turns := blockAfterEach [[], [], [(0x28#8, 0xFF#8)]] }
    updateOf setNibble = some (.set, 0x28#8, 0x0F#8, 0x0F#8) ∧ s.phase = .idle ∧ s.commands = encode setNibble :: [] ∧
    s.turns = blockAfterEach [[], [], [(0x28#8, 0xFF#8)]] ∧ s.readAnswers = .held [] :: [] ∧ s.writeAnswers = .ok true [] :: [] :=
  ⟨rfl, rfl, rfl, rfl, rfl, rfl, rfl⟩

/-- P4: the two instances and the order of moves in which A's update is lost. -/
def twoInstances : System :=
  { blocks := [about setNibble (.held []) (.ok true []), about (.setbits 0x28#8 0xA0#8 0xF0#8) (.held []) (.ok true [])]
    mem := [(0x28, 0x00#8)]
    port := []
    order := [0, 1, 0, 1, 0, 1] }

theorem witness_TwoInstancesCanLoseAnUpdate :
    updateOf setNibble = some (.set, 0x28#8, 0x0F#8, 0x0F#8) ∧
    updateOf (.setbits 0x28#8 0xA0#8 0xF0#8) = some (.set, 0x28#8, 0xA0#8, 0xF0#8) ∧
    twoInstances.blocks = [about setNibble (.held []) (.ok true []), about (.setbits 0x28#8 0xA0#8 0xF0#8) (.held []) (.ok true [])] ∧
    Ready (about setNibble (.held []) (.ok true [])) setNibble ∧
    Ready (about (.setbits 0x28#8 0xA0#8 0xF0#8) (.held []) (.ok true [])) (.setbits 0x28#8 0xA0#8 0xF0#8) ∧
    3 ≤ twoInstances.order.count 0 ∧ 3 ≤ twoInstances.order.count 1 ∧ twoInstances.order = [0, 1, 0, 1, 0, 1] :=
  ⟨rfl, rfl, rfl, ⟨rfl, rfl, rfl, rfl, rfl⟩, ⟨rfl, rfl, rfl, rfl, rfl⟩, by decide, by decide, rfl⟩

/-- P4, row 3: the register ends at 0xA0. -/
theorem test_lost_update : (System.run 6 twoInstances).mem.read 0x28#8 = some 0xA0#8 := by decide

/-- A reset while reading, while writing, and with nothing outstanding. -/
theorem witness_ResetAbandonsTheCommand :
    { reading with turns := [.reset false] }.turns = [.reset false] ∧ reading.outstanding = true ∧ reading.phase = .read ∧
    writing.outstanding = true ∧ writing.phase = .write ∧ busy.outstanding = false := by decide

theorem witness_ResetShowsTheAbandonedRequest :
    ({ reading with turns := [.reset true] } : State).turns = .reset true :: [] ∧ reading.outstanding = true ∧
    writing.outstanding = true ∧ reading.phase = .read ∧ writing.phase = .write := ⟨rfl, rfl, rfl, rfl, rfl⟩

theorem witness_WaitsUntilAnswered :
    (reading.turns = [] ∧ reading.phase = .read ∧ ∀ r ∈ [ReadAnswer.wait, .wait], r = .wait) ∧
    (writing.turns = [] ∧ writing.phase = .write ∧ writing.writeAnswers = []) ∧
    CollaboratorAnswers { reading with readAnswers := [.wait, .held []], writeAnswers := [.wait, .ok true []] } ∧
    ({ reading with turns := [.block, .reset true] }.turns = [.block, .reset true] ∧
      ReadWaits { reading with readAnswers := [.wait, .held []] } ∧ WriteWaits writing) :=
  ⟨⟨rfl, rfl, by decide⟩, ⟨rfl, rfl, rfl⟩,
    ⟨⟨1, .held [], [], rfl, by decide, fun _ _ h => nomatch h⟩, ⟨1, .ok true [], [], rfl, by decide⟩⟩,
    rfl, .inr ⟨_, rfl⟩, .inl rfl⟩

/-- R164 and R152: one request never answered, a reset, and the next command completes. -/
theorem test_recovery_after_silence :
    ∃ t, run 5 { reading with
        commands := [encode setNibble], turns := [.block, .reset false]
        readAnswers := [.wait, .held []], writeAnswers := [.ok true []] } = .next t ∧
      t.phase = .idle ∧ t.mem.read 0x28#8 = some 0xCF#8 :=
  ⟨_, rfl, rfl, rfl⟩

/-- Steps that answer a next state, one for each way PHASE can move. -/
theorem witness_step_next :
    inPhase .idle (step { reading with turns := [.reset true] }) = true ∧
    inPhase .read (step { reading with turns := [.other 0x28#8 0#8] }) = true ∧
    inPhase .idle (step busy) = true ∧
    inPhase .idle (step { busy with commands := [0x200004E2#32] }) = true ∧
    inPhase .read (step (about setNibble (.held []) (.ok true []))) = true ∧
    inPhase .read (step reading) = true ∧
    inPhase .write (step { reading with readAnswers := [.held []] }) = true ∧
    inPhase .idle (step { reading with readAnswers := [.err aToken []] }) = true ∧
    inPhase .write (step writing) = true ∧
    inPhase .idle (step { writing with writeAnswers := [.ok true []] }) = true ∧
    inPhase .idle (step { writing with writeAnswers := [.err aToken false] }) = true := by decide

/-- A state that meets the invariant and steps to a next state: reading, with an answer. -/
theorem witness_StepKeepsTheInvariant :
    MachineInv { reading with readAnswers := [.held []] } ∧
    ∃ t, step { reading with readAnswers := [.held []] } = .next t :=
  ⟨⟨by decide, fun h => (nomatch h), fun _ => rfl, by decide, by decide, fun _ h => (nomatch h), fun _ h => (nomatch h)⟩,
    ⟨_, rfl⟩⟩

/-- Two states that differ in every latch, in IDLE. -/
theorem witness_LatchesDoNotOutliveTheirCommand : SameButDeadLatches { State.reset with mem := busy.mem } busy :=
  ⟨rfl, rfl, rfl, rfl, rfl, rfl, rfl, rfl, rfl, fun h => absurd rfl h, fun h => nomatch h⟩

/-- A run that ends: one command word, three steps. -/
theorem witness_EveryWordOwesOneResponse :
    ∃ t, run 3 (about setNibble (.held []) (.ok true [])) = .next t ∧ (about setNibble (.held []) (.ok true [])).phase = .idle ∧
      (∀ took, Turn.reset took ∉ (about setNibble (.held []) (.ok true [])).turns) ∧ RunEnded t :=
  ⟨_, rfl, rfl, by simp [about, busy, State.reset], rfl, rfl, rfl⟩

theorem witness_OnlyTheWriteStoresAndOnlyAtReg :
    let s : State := { writing with writeAnswers := [.ok true []] }
    (∃ t, exec setNibble s = .next t) ∧ updateOf setNibble = some (.set, 0x28#8, 0x0F#8, 0x0F#8) ∧ s.phase = .write ∧
    s.writeAnswers = .ok true [] :: [] ∧ (0x12#8 : Byte) ≠ s.reg ∧
    (∀ w ∈ s.writeAnswers, ∀ p ∈ w.effects, p.1 ≠ 0x12#8) ∧
    (∃ t, exec setNibble { reading with readAnswers := [.held [(0x30#8, 0x00#8)]] } = .next t) ∧
    (∃ t, exec setNibble busy = .next t) :=
  ⟨⟨_, rfl⟩, rfl, rfl, rfl, by decide, by simp [WriteAnswer.effects], ⟨_, rfl⟩, ⟨_, rfl⟩⟩

theorem witness_StopsOnlyOnMalformedReply :
    let s : State := { reading with readAnswers := [.bytes [] []] }
    BlockMoves s ∧ s.phase = .read ∧ s.readAnswers = .bytes [] [] :: [] ∧ ([] : List Byte).length ≠ 1 :=
  ⟨.inl rfl, rfl, rfl, by decide⟩

theorem witness_InstancesShareOnlyRemoteRegisters :
    twoInstances.order = 0 :: [1, 0, 1, 0, 1] ∧ twoInstances.blocks[0]? = some (about setNibble (.held []) (.ok true [])) ∧
    ∃ t, step { about setNibble (.held []) (.ok true []) with mem := twoInstances.mem } = .next t :=
  ⟨rfl, rfl, ⟨_, rfl⟩⟩

/-- At 0x28: a read of it, a write of it, and a transaction elsewhere. -/
theorem witness_StorageRegisterReadsBackTheLastWrite :
    (StorageAt 0x28#8 { reading with readAnswers := [.held []] } ∧
      ∃ t, step { reading with readAnswers := [.held []] } = .next t) ∧
    (StorageAt 0x28#8 { writing with writeAnswers := [.ok true []] } ∧
      ∃ t, step { writing with writeAnswers := [.ok true []] } = .next t) ∧
    BlockMoves reading ∧ BlockMoves writing ∧ reading.reg = 0x28#8 ∧ reading.reg ≠ 0x12#8 :=
  ⟨⟨storageAt_of_answers (by decide) (by simp [reading, busy, State.reset]), ⟨_, rfl⟩⟩,
    ⟨storageAt_of_answers (by decide) (by simp [WriteAnswer.effects]), ⟨_, rfl⟩⟩, .inl rfl, .inl rfl, rfl, by decide⟩

end Sys2Proof.Tests
end

/-! SUPPORT. The next states of a step, whole, by phase: what a command word taken in IDLE leads to, and what each answer to a
read and to a write leads to (R12, R107). -/

namespace Sys2Proof.Machine

/-! ### A reset, and an error in IDLE -/

@[simp] theorem resetBlock_phase (took : Bool) (s : State) : (resetBlock took s).phase = .idle := rfl

/-- The command in progress is abandoned without a response (R152). -/
@[simp] theorem resetBlock_responses (took : Bool) (s : State) : (resetBlock took s).responses = s.responses := by
  rcases resetBlock_cases took s with ⟨_, h⟩ | ⟨_, _, h⟩ | ⟨_, _, h⟩ <;> rw [h]

/-- In IDLE an error is an answer like any other: PHASE stays where it is (R136). -/
theorem raise_of_idle (x : Error) {s : State} (hp : s.phase = .idle) : raise x s = respond x.response s := by
  cases s; cases hp; rfl

/-! ### IDLE -/

/-- A converter answers with one response, whether the quantity is in its domain or not (R84, R85). -/
theorem convert_answers (f : Field) (v : Int) {s : State} (hp : s.phase = .idle) :
    ∃ r, convert f v s = respond r { s with val := v, func := fieldFunc f } := by
  rcases convert_cases f v s with ⟨raw, _, h⟩ | ⟨_, h⟩
  · exact ⟨_, h⟩
  · exact ⟨_, by rw [h, raise_of_idle]; exact hp⟩

/-- A pure command is answered in the step that takes it; it writes operand latches alone (R11, R12). -/
theorem exec_pure {i : Instr} {s : State} (hp : s.phase = .idle) (hi : updateOf i = none) :
    ∃ t r, exec i s = .next t ∧
      t = { s with reg := t.reg, bits := t.bits, func := t.func, val := t.val, responses := s.responses ++ [r] } := by
  rcases exec_idle_cases i hp with ⟨a, _, h⟩ | ⟨f, v, h, _⟩ | ⟨f, b, h, _⟩ | ⟨a, b, m, rfl, _⟩ | ⟨a, b, rfl, _⟩ | ⟨a, b, rfl, _⟩
  · exact ⟨_, _, h, rfl⟩
  · obtain ⟨r, hr⟩ := convert_answers f v hp
    exact ⟨_, r, h, by rw [hr]; rfl⟩
  · exact ⟨_, _, h, rfl⟩
  all_goals cases hi

/-- A bit-update command taken in IDLE is accepted and nothing more (R107, step 1). -/
theorem exec_update {i : Instr} {s : State} {op : UpdateOp} {reg bits mask : Byte} (hp : s.phase = .idle)
    (hi : updateOf i = some (op, reg, bits, mask)) :
    exec i s = .next { acceptUpdate op reg bits mask s with me := meAfter op s.me } := by
  cases i with
  | setbits a b m => cases hi; simp [exec, execSetbits, hp, meAfter]
  | setbitsD a b => cases hi; simp [exec, execSetbitsD, hp, meAfter]
  | clrbits a b => cases hi; simp [exec, execClrbits, hp, meAfter, acceptUpdate]
  | _ => cases hi

/-- In IDLE the block waits for a word, or takes one and answers it, or takes one and accepts it. -/
theorem blockStep_idle_next {s t : State} (hp : s.phase = .idle) (h : blockStep s = .next t) :
    (s.commands = [] ∧ t = s) ∨
    (∃ w ws r, s.commands = w :: ws ∧ (∀ i, decode w = .ok i → updateOf i = none) ∧
      t = { s with
        commands := ws, reg := t.reg, bits := t.bits, func := t.func, val := t.val
        responses := s.responses ++ [r] }) ∨
    (∃ w ws i op reg bits mask, s.commands = w :: ws ∧ decode w = .ok i ∧ updateOf i = some (op, reg, bits, mask) ∧
      t = { acceptUpdate op reg bits mask s with commands := ws, me := meAfter op s.me }) := by
  rcases hc : s.commands with _ | ⟨w, ws⟩
  · rw [blockStep_waits hp hc] at h
    cases h
    exact .inl ⟨rfl, rfl⟩
  rcases hd : decode w with x | i
  · rw [blockStep_illegal hp hc hd, illegalWord,
      raise_of_idle (s := { s with commands := ws }) _ hp] at h
    cases h
    exact .inr (.inl ⟨w, ws, _, rfl, by simp [hd], rfl⟩)
  rw [blockStep_accepts hp hc hd] at h
  rcases hi : updateOf i with _ | ⟨op, reg, bits, mask⟩
  · obtain ⟨t', r, ht', hr⟩ := exec_pure (s := { s with commands := ws }) hp hi
    cases ht'.symm.trans h
    exact .inr (.inl ⟨w, ws, r, rfl, by simp [hd, hi], hr⟩)
  · cases (exec_update (s := { s with commands := ws }) hp hi).symm.trans h
    exact .inr (.inr ⟨w, ws, i, op, reg, bits, mask, rfl, hd, hi, rfl⟩)

/-! ### READ and WRITE -/

/-- In READ the block waits, or goes on to WRITE with the byte read, or ends the command with TransportError (R107, step 2). -/
theorem blockStep_read_next {s t : State} (hp : s.phase = .read) (h : blockStep s = .next t) :
    (ReadWaits s ∧ t = { s with readAnswers := s.readAnswers.tail, outstanding := true }) ∨
    (∃ b fx rest, ReadsOk s b fx rest ∧ t = { s with
      readAnswers := rest, outstanding := false, cur := b, phase := .write
      mem := s.mem.writes fx
      trace := s.trace ++ [.readBytes s.reg 1 (.ok b)] }) ∨
    (∃ e fx rest, s.readAnswers = .err e fx :: rest ∧ t = { s with
      readAnswers := rest, outstanding := false, phase := .idle
      mem := s.mem.writes fx
      trace := s.trace ++ [.readBytes s.reg 1 (.err e)]
      responses := s.responses ++ [⟨0x80000000#32, .terr e⟩] }) := by
  rw [blockStep_read hp] at h
  rcases readAnswers_cases s with hw | ⟨b, fx, rest, hb⟩ | ⟨e, fx, rest, he⟩ | ⟨bs, fx, rest, hm, hl⟩
  · cases (readTransaction_waits hw).symm.trans h
    exact .inl ⟨hw, rfl⟩
  · cases (readTransaction_ok hb).symm.trans h
    exact .inr (.inl ⟨b, fx, rest, hb, rfl⟩)
  · cases (readTransaction_err he).symm.trans h
    exact .inr (.inr ⟨e, fx, rest, he, rfl⟩)
  · cases (readTransaction_malformed hm hl).symm.trans h

/-- In WRITE the block waits, or ends the command with OK, or ends it with TransportError (R107, step 3). -/
theorem blockStep_write_next {s t : State} (hp : s.phase = .write) (h : blockStep s = .next t) :
    (WriteWaits s ∧ t = { s with writeAnswers := s.writeAnswers.tail, outstanding := true }) ∨
    (∃ took fx rest, s.writeAnswers = .ok took fx :: rest ∧ t = { s with
      writeAnswers := rest, outstanding := false, phase := .idle
      mem := (s.mem.takes took s.reg (newByte s)).writes fx
      trace := s.trace ++ [.writeBytes s.reg [newByte s] .ok]
      responses := s.responses ++ [⟨0x00000000#32, .none⟩] }) ∨
    (∃ e took rest, s.writeAnswers = .err e took :: rest ∧ t = { s with
      writeAnswers := rest, outstanding := false, phase := .idle
      mem := s.mem.takes took s.reg (newByte s)
      trace := s.trace ++ [.writeBytes s.reg [newByte s] (.err e)]
      responses := s.responses ++ [⟨0x80000000#32, .terr e⟩] }) := by
  rw [blockStep_write hp] at h
  rcases writeAnswers_cases s with hw | ⟨took, fx, rest, ho⟩ | ⟨e, took, rest, he⟩
  · cases (writeTransaction_waits _ hw).symm.trans h
    exact .inl ⟨hw, rfl⟩
  · cases (writeTransaction_ok ho).symm.trans h
    exact .inr (.inl ⟨took, fx, rest, ho, rfl⟩)
  · cases (writeTransaction_err he).symm.trans h
    exact .inr (.inr ⟨e, took, rest, he, rfl⟩)

/-! ### The transitions of PHASE -/

/-- Settles O44: whose turn it is, then the phase, then what the port of that phase shows. -/
theorem phaseMovesAreTheOnlyOnes : Obligations.PhaseMovesAreTheOnlyOnes := by
  intro s t h
  rcases step_cases s with ⟨hb, hs⟩ | ⟨a, b, ts, hturns, hs⟩ | ⟨took, ts, hturns, hs⟩
  · refine .inr (.inr ⟨hb, ?_⟩)
    rw [hs] at h
    rcases phase_cases s with hp | hp | hp
    · rcases blockStep_idle_next (s := afterTurn s) hp h with
        ⟨hc, rfl⟩ | ⟨w, ws, r, hc, hpure, ht⟩ | ⟨w, ws, i, op, reg, bits, mask, hc, hd, hi, rfl⟩
      · exact .inl ⟨hp, hc, hp, rfl⟩
      · exact .inr (.inl ⟨hp, ⟨w, ws, hc, hpure⟩, by rw [ht]; exact hp, r, by rw [ht]; rfl⟩)
      · exact .inr (.inr (.inl ⟨hp, ⟨w, ws, i, _, hc, hd, hi⟩, rfl, rfl⟩))
    · refine .inr (.inr (.inr ?_))
      rcases blockStep_read_next (s := afterTurn s) hp h with
        ⟨hw, rfl⟩ | ⟨b, fx, rest, hok, rfl⟩ | ⟨e, fx, rest, he, rfl⟩
      · exact .inl ⟨hp, hw, hp, rfl⟩
      · exact .inr (.inl ⟨hp, ⟨b, fx, rest, hok, rfl⟩, rfl, rfl⟩)
      · exact .inr (.inr (.inl ⟨hp, rfl, e, fx, rest, he, rfl⟩))
    · refine .inr (.inr (.inr (.inr (.inr (.inr ?_)))))
      rcases blockStep_write_next (s := afterTurn s) hp h with
        ⟨hw, rfl⟩ | ⟨took, fx, rest, hok, rfl⟩ | ⟨e, took, rest, he, rfl⟩
      · exact .inl ⟨hp, hw, hp, rfl⟩
      · exact .inr (.inl ⟨hp, rfl, ⟨took, fx, rest, hok⟩, rfl⟩)
      · exact .inr (.inr ⟨hp, rfl, e, took, rest, he, rfl⟩)
  · cases hs.symm.trans h
    exact .inr (.inl ⟨⟨a, b, ts, hturns⟩, rfl, rfl⟩)
  · cases hs.symm.trans h
    exact .inl ⟨⟨took, ts, hturns⟩, resetBlock_phase _ _, resetBlock_responses _ _⟩

end Sys2Proof.Machine

/-! SUPPORT. The decoder undoes the encoder, command by command (R60, R65, R71). -/

namespace Sys2Proof

/-- A word with the fixed bits of row `n` of R65 decodes to what that row builds. -/
theorem decode_of_row (n : Nat) {w : Word} {i : Instr} (h : n < rows.length) (hw : w &&& rows[n].care = rows[n].value)
    (hb : rows[n].build w = i) : decode w = .ok i := by
  rw [decode_of_fits (List.getElem_mem h) ((fits_iff _ _).2 hw), hb]

theorem decode_encode {i : Instr} (h : i.wf = true) : decode (encode i) = .ok i := by
  cases i with
  | name reg => exact decode_of_row 0 (by decide) (formatN_fixed _ _) (congrArg Instr.name (wordReg_formatN _ _))
  | convDcdc v => exact decode_of_row 1 (by decide) (formatC_fixed _ _ _) (congrArg Instr.convDcdc (wordVal_formatC _ _ h))
  | convLdo3 v => exact decode_of_row 2 (by decide) (formatC_fixed _ _ _) (congrArg Instr.convLdo3 (wordVal_formatC _ _ h))
  | convLdo2 v => exact decode_of_row 3 (by decide) (formatC_fixed _ _ _) (congrArg Instr.convLdo2 (wordVal_formatC _ _ h))
  | convChgv v => exact decode_of_row 4 (by decide) (formatC_fixed _ _ _) (congrArg Instr.convChgv (wordVal_formatC _ _ h))
  | convChgi v => exact decode_of_row 5 (by decide) (formatC_fixed _ _ _) (congrArg Instr.convChgi (wordVal_formatC _ _ h))
  | decDcdc b => exact decode_of_row 6 (by decide) (formatD_fixed _ _ _) (congrArg Instr.decDcdc (wordByte_formatD _ _ _))
  | decLdo3 b => exact decode_of_row 7 (by decide) (formatD_fixed _ _ _) (congrArg Instr.decLdo3 (wordByte_formatD _ _ _))
  | decLdo2 b => exact decode_of_row 8 (by decide) (formatD_fixed _ _ _) (congrArg Instr.decLdo2 (wordByte_formatD _ _ _))
  | decChgv b => exact decode_of_row 9 (by decide) (formatD_fixed _ _ _) (congrArg Instr.decChgv (wordByte_formatD _ _ _))
  | decChgi b => exact decode_of_row 10 (by decide) (formatD_fixed _ _ _) (congrArg Instr.decChgi (wordByte_formatD _ _ _))
  | setbits reg bits mask =>
    exact decode_of_row 11 (by decide) (formatB_fixed _ _ _ _ _)
      (congr (congrArg₂ Instr.setbits (wordReg_formatB _ _ _ _ _) (wordByte_formatB _ _ _ _ _)) (wordMask_formatB _ _ _ _ _))
  | setbitsD reg bits =>
    exact decode_of_row 12 (by decide) (formatB_fixed_no_mask _ _ _ _)
      (congrArg₂ Instr.setbitsD (wordReg_formatB _ _ _ _ _) (wordByte_formatB _ _ _ _ _))
  | clrbits reg bits =>
    exact decode_of_row 13 (by decide) (formatB_fixed_no_mask _ _ _ _)
      (congrArg₂ Instr.clrbits (wordReg_formatB _ _ _ _ _) (wordByte_formatB _ _ _ _ _))

end Sys2Proof

/-! SUPPORT. Runs of the block alone: the step of each phase when nobody else has a turn, one command from its acceptance to its
response, and a list of commands one after another (R46, R107, R115). -/

namespace Sys2Proof.Machine

open Sys2Proof.Config (TErr)

/-- Two runs end to end. -/
theorem run_add {m : Nat} (n : Nat) {s t : State} (h : run m s = .next t) : run (m + n) s = run n t := by
  induction m generalizing s with
  | zero => cases h; rw [Nat.zero_add]
  | succ m ih =>
    rw [Nat.add_right_comm]
    cases hs : step s with
    | next u => rw [run_next _ hs] at h ⊢; exact ih h
    | fault x => simp [run, hs] at h
    | refused x => simp [run, hs] at h

/-! ### One step, with no turn listed -/

/-- In IDLE a well-formed command's word is taken and the command executed. -/
theorem step_takes_encoded {s : State} {i : Instr} {ws : List Word} (ht : s.turns = []) (hp : s.phase = .idle)
    (hi : i.wf = true) (hc : s.commands = encode i :: ws) : step s = exec i { s with commands := ws } := by
  rw [step_no_turn ht, blockStep_accepts hp hc (decode_encode hi)]

/-- A bit-update command taken in IDLE: accepted, the words `ws` left on the port (R107, step 1). -/
def accepted (op : UpdateOp) (reg bits mask : Byte) (ws : List Word) (s : State) : State :=
  { acceptUpdate op reg bits mask s with commands := ws, me := meAfter op s.me }

theorem step_accepts {s : State} {i : Instr} {ws : List Word} {op : UpdateOp} {reg bits mask : Byte} (ht : s.turns = [])
    (hp : s.phase = .idle) (hi : i.wf = true) (hu : updateOf i = some (op, reg, bits, mask))
    (hc : s.commands = encode i :: ws) : step s = .next (accepted op reg bits mask ws s) :=
  (step_takes_encoded ht hp hi hc).trans (exec_update hp hu)

theorem step_read_ok {s : State} {c : Byte} {fx : Effects} {rest : List ReadAnswer} (ht : s.turns = [])
    (hp : s.phase = .read) (hr : s.readAnswers = .bytes [c] fx :: rest) :
    step s = .next { s with
      readAnswers := rest, outstanding := false, cur := c, phase := .write
      mem := s.mem.writes fx
      trace := s.trace ++ [.readBytes s.reg 1 (.ok c)] } := by
  rw [step_no_turn ht, blockStep_read hp, readTransaction_ok (.inl hr)]

theorem step_read_err {s : State} {e : TErr} {fx : Effects} {rest : List ReadAnswer} (ht : s.turns = [])
    (hp : s.phase = .read) (hr : s.readAnswers = .err e fx :: rest) :
    step s = .next { s with
      readAnswers := rest, outstanding := false, phase := .idle
      mem := s.mem.writes fx
      trace := s.trace ++ [.readBytes s.reg 1 (.err e)]
      responses := s.responses ++ [⟨0x80000000#32, .terr e⟩] } := by
  rw [step_no_turn ht, blockStep_read hp, readTransaction_err hr]

theorem step_write_ok {s : State} {took : Bool} {fx : Effects} {rest : List WriteAnswer} (ht : s.turns = [])
    (hp : s.phase = .write) (hw : s.writeAnswers = .ok took fx :: rest) :
    step s = .next { s with
      writeAnswers := rest, outstanding := false, phase := .idle
      mem := (s.mem.takes took s.reg (writtenByte s.op s.cur s.bits s.mask)).writes fx
      trace := s.trace ++ [.writeBytes s.reg [writtenByte s.op s.cur s.bits s.mask] .ok]
      responses := s.responses ++ [⟨0x00000000#32, .none⟩] } := by
  rw [step_no_turn ht, blockStep_write hp, writeTransaction_ok hw, newByte_eq_writtenByte]

theorem step_write_err {s : State} {e : TErr} {took : Bool} {rest : List WriteAnswer} (ht : s.turns = [])
    (hp : s.phase = .write) (hw : s.writeAnswers = .err e took :: rest) :
    step s = .next { s with
      writeAnswers := rest, outstanding := false, phase := .idle
      mem := s.mem.takes took s.reg (writtenByte s.op s.cur s.bits s.mask)
      trace := s.trace ++ [.writeBytes s.reg [writtenByte s.op s.cur s.bits s.mask] (.err e)]
      responses := s.responses ++ [⟨0x80000000#32, .terr e⟩] } := by
  rw [step_no_turn ht, blockStep_write hp, writeTransaction_err hw, newByte_eq_writtenByte]

/-- The read answered `Ok(c)` and then the write of f(c) answered `Ok` (R107, steps 2 and 3). -/
theorem run_read_ok_write_ok {s : State} {c : Byte} {fx fx' : Effects} {took : Bool} {rs : List ReadAnswer}
    {was : List WriteAnswer} (ht : s.turns = []) (hp : s.phase = .read) (hr : s.readAnswers = .bytes [c] fx :: rs)
    (hw : s.writeAnswers = .ok took fx' :: was) :
    run 2 s = .next { s with
      readAnswers := rs, writeAnswers := was, outstanding := false, cur := c, phase := .idle
      mem := ((s.mem.writes fx).takes took s.reg (writtenByte s.op c s.bits s.mask)).writes fx'
      trace := s.trace ++ [.readBytes s.reg 1 (.ok c)] ++ [.writeBytes s.reg [writtenByte s.op c s.bits s.mask] .ok]
      responses := s.responses ++ [⟨0x00000000#32, .none⟩] } :=
  (run_next 1 (step_read_ok ht hp hr)).trans (run_next 0 (step_write_ok ht rfl hw))

/-- The read answered `Ok(c)` and then the write of f(c) answered `Err(e)` (R107, steps 2 and 3). -/
theorem run_read_ok_write_err {s : State} {c : Byte} {fx : Effects} {e : TErr} {took : Bool} {rs : List ReadAnswer}
    {was : List WriteAnswer} (ht : s.turns = []) (hp : s.phase = .read) (hr : s.readAnswers = .bytes [c] fx :: rs)
    (hw : s.writeAnswers = .err e took :: was) :
    run 2 s = .next { s with
      readAnswers := rs, writeAnswers := was, outstanding := false, cur := c, phase := .idle
      mem := (s.mem.writes fx).takes took s.reg (writtenByte s.op c s.bits s.mask)
      trace := s.trace ++ [.readBytes s.reg 1 (.ok c)] ++ [.writeBytes s.reg [writtenByte s.op c s.bits s.mask] (.err e)]
      responses := s.responses ++ [⟨0x80000000#32, .terr e⟩] } :=
  (run_next 1 (step_read_ok ht hp hr)).trans (run_next 0 (step_write_err ht rfl hw))

/-! ### A list of commands, presented and answered -/

/-- In IDLE, with nobody else to move, the commands `us` are presented with the answers their transactions get; `ws`, `rs` and
`was` are left for later. -/
structure Presents (us : List (Instr × Reply)) (ws : List Word) (rs : List ReadAnswer) (was : List WriteAnswer)
    (s : State) : Prop where
  turns : s.turns = []
  phase : s.phase = .idle
  commands : s.commands = us.map (fun u => encode u.1) ++ ws
  readAnswers : s.readAnswers = us.flatMap (fun u => readsOf u.1 u.2) ++ rs
  writeAnswers : s.writeAnswers = us.flatMap (fun u => writesOf u.1 u.2) ++ was

/-- From `s` to `t` the ports have shown the transactions of `us` in turn and a response for each. -/
structure Answered (us : List (Instr × Reply)) (s t : State) : Prop where
  trace : t.trace = s.trace ++ us.flatMap (fun u => transactionsOf u.1 u.2)
  responses : t.responses.length = s.responses.length + us.length

theorem Answered.nil (s : State) : Answered [] s s := ⟨by simp, rfl⟩

theorem Answered.cons {u : Instr × Reply} {us : List (Instr × Reply)} {s t v : State} (h : Answered [u] s t)
    (h' : Answered us t v) : Answered (u :: us) s v :=
  ⟨by simp [h'.trace, h.trace], by simp [h'.responses, h.responses]; omega⟩

section
variable {i : Instr} {r : Reply} {us : List (Instr × Reply)} {ws : List Word} {rs : List ReadAnswer} {was : List WriteAnswer}
  {s : State}

/-- The read answers of the first command come first. -/
theorem Presents.readAnswers_cons (h : Presents ((i, r) :: us) ws rs was s) :
    s.readAnswers = readsOf i r ++ (us.flatMap (fun u => readsOf u.1 u.2) ++ rs) := by
  rw [h.readAnswers, List.flatMap_cons, List.append_assoc]

/-- The write answers of the first command come first. -/
theorem Presents.writeAnswers_cons (h : Presents ((i, r) :: us) ws rs was s) :
    s.writeAnswers = writesOf i r ++ (us.flatMap (fun u => writesOf u.1 u.2) ++ was) := by
  rw [h.writeAnswers, List.flatMap_cons, List.append_assoc]

/-- A pure command has its response in one step and makes no transaction. -/
theorem run_pure (hi : i.wf = true) (hu : updateOf i = none) (h : Presents ((i, r) :: us) ws rs was s) :
    ∃ t, run (stepsOf i r) s = .next t ∧ Presents us ws rs was t ∧ Answered [(i, r)] s t := by
  have htake := step_takes_encoded h.turns h.phase hi h.commands
  obtain ⟨t, x, hexec, hx⟩ := exec_pure (s := { s with commands := us.map (fun u => encode u.1) ++ ws }) h.phase hu
  have hreads := h.readAnswers_cons
  have hwrites := h.writeAnswers_cons
  rw [readsOf.eq_def, hu] at hreads
  rw [writesOf.eq_def, hu] at hwrites
  rw [stepsOf.eq_def, hu]
  refine ⟨t, run_next 0 (htake.trans hexec), ?_⟩
  rw [hx]
  exact ⟨⟨h.turns, h.phase, rfl, hreads, hwrites⟩, ⟨by simp [transactionsOf, hu], by simp⟩⟩

/-- A bit-update command is accepted, then reads, and writes unless the read failed; whichever transaction is its last brings
its response. -/
theorem run_update {op : UpdateOp} {reg bits mask : Byte} (hi : i.wf = true) (hu : updateOf i = some (op, reg, bits, mask))
    (h : Presents ((i, r) :: us) ws rs was s) :
    ∃ t, run (stepsOf i r) s = .next t ∧ Presents us ws rs was t ∧ Answered [(i, r)] s t := by
  have haccept := step_accepts h.turns h.phase hi hu h.commands
  have hturns : (accepted op reg bits mask (us.map (fun u => encode u.1) ++ ws) s).turns = [] := h.turns
  have hreads := h.readAnswers_cons
  have hwrites := h.writeAnswers_cons
  rw [readsOf.eq_def, hu] at hreads
  rw [writesOf.eq_def, hu] at hwrites
  rw [stepsOf.eq_def, hu]
  cases r with
  | done c fx took fx' =>
    exact ⟨_, (run_next 2 haccept).trans (run_read_ok_write_ok hturns rfl hreads hwrites),
      ⟨hturns, rfl, rfl, rfl, rfl⟩, ⟨by simp [transactionsOf, hu, accepted, acceptUpdate], List.length_append⟩⟩
  | readFails e fx =>
    exact ⟨_, (run_next 1 haccept).trans (run_next 0 (step_read_err hturns rfl hreads)),
      ⟨hturns, rfl, rfl, rfl, hwrites⟩, ⟨by simp [transactionsOf, hu, accepted, acceptUpdate], List.length_append⟩⟩
  | writeFails c fx e took =>
    exact ⟨_, (run_next 2 haccept).trans (run_read_ok_write_err hturns rfl hreads hwrites),
      ⟨hturns, rfl, rfl, rfl, rfl⟩, ⟨by simp [transactionsOf, hu, accepted, acceptUpdate], List.length_append⟩⟩

/-- One command's steps end in IDLE with its response sent, its transactions shown, and the rest still presented. -/
theorem run_command (hi : i.wf = true) (h : Presents ((i, r) :: us) ws rs was s) :
    ∃ t, run (stepsOf i r) s = .next t ∧ Presents us ws rs was t ∧ Answered [(i, r)] s t := by
  rcases hu : updateOf i with _ | ⟨op, reg, bits, mask⟩
  · exact run_pure hi hu h
  · exact run_update hi hu h

/-- The commands run one after another, each from where the one before it ended. -/
theorem run_commands (hwf : ∀ u ∈ us, u.1.wf = true) (h : Presents us ws rs was s) :
    ∃ t, run (us.map (fun u => stepsOf u.1 u.2)).sum s = .next t ∧ Presents [] ws rs was t ∧ Answered us s t := by
  induction us generalizing s with
  | nil => exact ⟨s, rfl, h, .nil s⟩
  | cons u us ih =>
    obtain ⟨hi, hwf⟩ := List.forall_mem_cons.1 hwf
    obtain ⟨t, hrun, ht, hshown⟩ := run_command hi h
    obtain ⟨v, hrun', hv, hshown'⟩ := ih hwf ht
    exact ⟨v, by rw [List.map_cons, List.sum_cons, run_add _ hrun, hrun'], hv, hshown.cons hshown'⟩

end

/-- Settles O38, by induction over the commands presented: each one's steps leave the block in IDLE with the others presented. -/
theorem commandsTransactInOrder : Obligations.CommandsTransactInOrder := by
  intro us s ws rs was hwf hturns hphase hcommands hreads hwrites
  obtain ⟨t, hrun, hend, hshown⟩ := run_commands hwf ⟨hturns, hphase, hcommands, hreads, hwrites⟩
  exact ⟨t, hrun, hend.phase, hend.commands, hshown.trace, hshown.responses⟩

end Sys2Proof.Machine

/-! SUPPORT. Which words no row fits (R65, R66): a row's test, field by field. -/

namespace Sys2Proof

/-- Two words agree on a stretch of bits when they agree on its upper `m` and its lower `n`. -/
theorem extract_add_eq_iff (w v : Word) (lsb m n : Nat) :
    w.extractLsb' lsb (m + n) = v.extractLsb' lsb (m + n) ↔
      w.extractLsb' (lsb + n) m = v.extractLsb' (lsb + n) m ∧ w.extractLsb' lsb n = v.extractLsb' lsb n := by
  rw [← BitVec.extractLsb'_append_extractLsb'_eq_extractLsb' (x := w) rfl,
    ← BitVec.extractLsb'_append_extractLsb'_eq_extractLsb' (x := v) rfl]
  constructor
  · intro h
    exact ⟨by simpa only [BitVec.extractLsb'_append_eq_left] using congrArg (BitVec.extractLsb' n m) h,
      by simpa only [BitVec.extractLsb'_append_eq_right] using congrArg (BitVec.extractLsb' 0 n) h⟩
  · rintro ⟨hi, lo⟩
    rw [hi, lo]

/-- A word is its fields: op, func, reg, mask and bits (R60). -/
theorem word_eq_iff (w v : Word) :
    w = v ↔ w.extractLsb' 28 4 = v.extractLsb' 28 4 ∧ w.extractLsb' 24 4 = v.extractLsb' 24 4 ∧
      w.extractLsb' 16 8 = v.extractLsb' 16 8 ∧ w.extractLsb' 8 8 = v.extractLsb' 8 8 ∧
      w.extractLsb' 0 8 = v.extractLsb' 0 8 := by
  have h := extract_add_eq_iff w v 0 4 28
  rw [extract_add_eq_iff w v 0 4 24, extract_add_eq_iff w v 0 8 16, extract_add_eq_iff w v 0 8 8] at h
  simpa only [BitVec.extractLsb'_eq_self] using h

theorem fits_iff_fields (r : Row) (w : Word) :
    r.fits w = true ↔
      w.extractLsb' 28 4 &&& r.care.extractLsb' 28 4 = r.value.extractLsb' 28 4 ∧
      w.extractLsb' 24 4 &&& r.care.extractLsb' 24 4 = r.value.extractLsb' 24 4 ∧
      w.extractLsb' 16 8 &&& r.care.extractLsb' 16 8 = r.value.extractLsb' 16 8 ∧
      w.extractLsb' 8 8 &&& r.care.extractLsb' 8 8 = r.value.extractLsb' 8 8 ∧
      w.extractLsb' 0 8 &&& r.care.extractLsb' 0 8 = r.value.extractLsb' 0 8 := by
  rw [fits_iff, word_eq_iff]
  simp only [BitVec.extractLsb'_and]

/-! The care bits of a row take a field whole or not at all (R65). -/

theorem and_ones4 (x : BitVec 4) : x &&& 15#4 = x := BitVec.and_allOnes
theorem and_ones8 (x : BitVec 8) : x &&& 255#8 = x := BitVec.and_allOnes

/-- The op codes of R65 are 1 to 5. -/
theorem op_cases (op : BitVec 4) :
    op = 0#4 ∨ op = 1#4 ∨ op = 2#4 ∨ op = 3#4 ∨ op = 4#4 ∨ op = 5#4 ∨
      (6 ≤ op.toNat ∧ op ≠ 1#4 ∧ op ≠ 2#4 ∧ op ≠ 3#4 ∧ op ≠ 4#4 ∧ op ≠ 5#4) := by
  revert op; decide

/-- The five rows of a CONV or DEC format, one for each func code of R55, fail together. -/
theorem five_le_func_or_iff (func : BitVec 4) (p : Prop) :
    5 ≤ func.toNat ∨ p ↔
      (func = 0#4 → p) ∧ (func = 1#4 → p) ∧ (func = 2#4 → p) ∧ (func = 3#4 → p) ∧ (func = 4#4 → p) := by
  by_cases hp : p
  · simp [hp]
  · simp only [hp, or_false, imp_false]
    revert func; decide

/-- `w[15:0]` is zero when mask and bits are. -/
theorem low16_eq_zero_iff (w : Word) :
    w.extractLsb' 0 16 = 0#16 ↔ w.extractLsb' 8 8 = 0#8 ∧ w.extractLsb' 0 8 = 0#8 :=
  extract_add_eq_iff w 0#32 0 8 8

/-- `w[23:8]` is zero when reg and mask are. -/
theorem mid16_eq_zero_iff (w : Word) :
    w.extractLsb' 8 16 = 0#16 ↔ w.extractLsb' 16 8 = 0#8 ∧ w.extractLsb' 8 8 = 0#8 :=
  extract_add_eq_iff w 0#32 8 8 8

/-- Format B: the bits of func are three reserved ones and ME (R60). -/
theorem func_eq_zero_iff (w : Word) :
    w.extractLsb' 24 4 = 0#4 ↔ w.extractLsb' 25 3 = 0#3 ∧ w.extractLsb' 24 1 = 0#1 :=
  extract_add_eq_iff w 0#32 24 3 1

theorem func_eq_one_iff (w : Word) :
    w.extractLsb' 24 4 = 1#4 ↔ w.extractLsb' 25 3 = 0#3 ∧ w.extractLsb' 24 1 = 1#1 :=
  extract_add_eq_iff w 0x01000000#32 24 3 1

/-- The words no row of R65 fits, by the op codes it has. -/
theorem decode_error_iff_fields (w : Word) :
    decode w = .error .illegalCommand ↔
      (w.extractLsb' 28 4 = 1#4 → w.extractLsb' 24 4 = 0#4 → w.extractLsb' 0 16 ≠ 0#16) ∧
      (w.extractLsb' 28 4 = 2#4 → 5 ≤ (w.extractLsb' 24 4).toNat ∨ w.extractLsb' 16 8 ≠ 0#8) ∧
      (w.extractLsb' 28 4 = 3#4 → 5 ≤ (w.extractLsb' 24 4).toNat ∨ w.extractLsb' 8 16 ≠ 0#16) ∧
      (w.extractLsb' 28 4 = 4#4 → w.extractLsb' 24 4 ≠ 1#4 ∧ (w.extractLsb' 24 4 = 0#4 → w.extractLsb' 8 8 ≠ 0#8)) ∧
      (w.extractLsb' 28 4 = 5#4 → w.extractLsb' 24 4 = 0#4 → w.extractLsb' 8 8 ≠ 0#8) := by
  rw [decode_error_iff]
  simp only [← Bool.not_eq_true, fits_iff_fields, five_le_func_or_iff, ne_eq, low16_eq_zero_iff, mid16_eq_zero_iff]
  simp [rows, and_ones4, and_ones8, imp_and, and_assoc]

/-- The illegal words of R66, word for word. -/
theorem illegal_iff (w : Word) : decode w = .error .illegalCommand ↔
    (w.extractLsb' 28 4 = 0#4 ∨ 6 ≤ (w.extractLsb' 28 4).toNat ∨
     (w.extractLsb' 28 4 = 1#4 ∧ (w.extractLsb' 24 4 ≠ 0#4 ∨ w.extractLsb' 0 16 ≠ 0#16)) ∨
     (w.extractLsb' 28 4 = 2#4 ∧ (5 ≤ (w.extractLsb' 24 4).toNat ∨ w.extractLsb' 16 8 ≠ 0#8)) ∨
     (w.extractLsb' 28 4 = 3#4 ∧ (5 ≤ (w.extractLsb' 24 4).toNat ∨ w.extractLsb' 8 16 ≠ 0#16)) ∨
     (w.extractLsb' 28 4 = 4#4 ∧
       (w.extractLsb' 25 3 ≠ 0#3 ∨ (w.extractLsb' 24 1 = 0#1 ∧ w.extractLsb' 8 8 ≠ 0#8))) ∨
     (w.extractLsb' 28 4 = 5#4 ∧ (w.extractLsb' 24 4 ≠ 0#4 ∨ w.extractLsb' 8 8 ≠ 0#8))) := by
  rw [decode_error_iff_fields]
  rcases op_cases (w.extractLsb' 28 4) with h | h | h | h | h | h | ⟨hreserved, h1, h2, h3, h4, h5⟩
  · simp [h]
  · simp [h, imp_iff_not_or]
  · simp [h]
  · simp [h]
  · rcases BitVec.eq_zero_or_eq_one (w.extractLsb' 24 1) with hme | hme <;>
      simp [h, hme, func_eq_zero_iff, func_eq_one_iff, imp_iff_not_or]
  · simp [h, imp_iff_not_or]
  · exact iff_of_true (by simp [h1, h2, h3, h4, h5]) (.inr (.inl hreserved))

end Sys2Proof

/-! SUPPORT. What the block does with an illegal word, and the word after it (R130). -/

namespace Sys2Proof.Machine

/-- A run of one step is that step. -/
theorem run_one (s : State) : run 1 s = step s := by
  cases h : step s <;> simp [run, h]

/-- In IDLE a word that decodes is taken and its command executed, once the block's turn is taken too. -/
theorem step_takes_decoded {s : State} {w : Word} {ws : List Word} {i : Instr} (hb : BlockMoves s) (hp : s.phase = .idle)
    (hc : s.commands = w :: ws) (hd : decode w = .ok i) : step s = exec i { afterTurn s with commands := ws } :=
  (step_of_blockMoves hb).trans (blockStep_accepts hp hc hd)

/-- An illegal word is taken and answered, and nothing else changes. -/
theorem step_illegal {s : State} {w : Word} {ws : List Word} (hb : BlockMoves s) (hp : s.phase = .idle)
    (hc : s.commands = w :: ws) (hd : decode w = .error .illegalCommand) :
    step s = .next { afterTurn s with commands := ws, responses := s.responses ++ [⟨0xC0000000#32, .none⟩] } := calc
  step s = .next (illegalWord { afterTurn s with commands := ws }) :=
    (step_of_blockMoves hb).trans (blockStep_illegal hp hc hd)
  _ = .next (respond Error.illegalCommand.response { afterTurn s with commands := ws }) :=
    congrArg Host.Outcome.next (raise_of_idle .illegalCommand hp)
  _ = .next { afterTurn s with commands := ws, responses := s.responses ++ [⟨0xC0000000#32, .none⟩] } := by
    rw [illegalCommand_response]; rfl

/-- Settles O7: the illegal words by op code, and one of them taken before a word that decodes. -/
theorem illegalWordsAreAnswered : Obligations.IllegalWordsAreAnswered := by
  refine ⟨illegal_iff, by decide, by decide, fun s w ws hb hp hc hd => ?_⟩
  have hstep := step_illegal hb hp hc hd
  refine ⟨hstep, fun w' ws' i hws hb' hd' => ?_⟩
  rw [run_next 1 hstep, run_one]
  exact step_takes_decoded hb' hp hws hd'

end Sys2Proof.Machine

/-! SUPPORT. The register map: what its admission test says of an entry (R78). -/

namespace Sys2Proof.Machine

open Sys2Proof.Config (Bitfield Descriptor)

/-- The map holds the admissible entries of the catalogue and no others. -/
theorem regmap_eq_some_iff {a : Byte} {d : Descriptor} :
    regmap a = some d ↔ Config.catalogue a = some d ∧ Descriptor.wf a d = true :=
  Option.filter_eq_some_iff

/-- A run inside the byte loses no bit of its formula (R53). -/
theorem toNat_runMask {width shift : Nat} (h : width + shift ≤ 8) :
    (runMask width shift).toNat = (2 ^ width - 1) * 2 ^ shift := by
  have hlt : (2 ^ width - 1) * 2 ^ shift < 2 ^ 8 := calc
    (2 ^ width - 1) * 2 ^ shift < 2 ^ width * 2 ^ shift :=
      Nat.mul_lt_mul_of_pos_right (Nat.sub_lt (Nat.two_pow_pos width) Nat.one_pos) (Nat.two_pow_pos shift)
    _ = 2 ^ (width + shift) := (Nat.pow_add 2 width shift).symm
    _ ≤ 2 ^ 8 := Nat.pow_le_pow_right Nat.two_pos h
  rw [runMask, BitVec.toNat_ofNat, Nat.mod_eq_of_lt hlt]

/-- An admissible field's mask is a run inside the byte, with the shift of its lowest bit, or none where it is one bit. -/
theorem run_of_wf {f : Bitfield} (h : Bitfield.wf f = true) :
    ∃ width shift, 1 ≤ width ∧ width + shift ≤ 8 ∧ f.mask.toNat = (2 ^ width - 1) * 2 ^ shift ∧
      (f.shift = some shift ∨ (f.shift = none ∧ width = 1)) := by
  simp only [Bitfield.wf, Bitfield.isRun, List.any_eq_true, Bool.and_eq_true, Bool.or_eq_true, decide_eq_true_eq,
    beq_iff_eq] at h
  obtain ⟨width, -, shift, -, ⟨⟨⟨hpos, hle⟩, hmask⟩, hshift⟩, -⟩ := h
  exact ⟨width, shift, hpos, hle, by rw [hmask, toNat_runMask hle], hshift⟩

theorem mayStandBeside_iff (f g : Bitfield) :
    Bitfield.mayStandBeside f g = true ↔
      f.mask &&& g.mask = 0#8 ∨ g.fieldName ∈ f.sharesWith ∨ f.fieldName ∈ g.sharesWith := by
  simp [Bitfield.mayStandBeside, or_assoc]

theorem fieldsApart_iff (fs : List Bitfield) :
    fieldsApart fs = true ↔ fs.Pairwise (fun f g => Bitfield.mayStandBeside f g = true) := by
  induction fs with
  | nil => simp [fieldsApart]
  | cons f fs ih => simp [fieldsApart, ih]

theorem hasKnownFields_iff (a : Byte) (d : Descriptor) :
    hasKnownFields a d = true ↔
      (a = 0x28#8 → (∃ f ∈ d.fields, f.mask = 0x0F#8 ∧ f.shift = some 0) ∧
        (∃ f ∈ d.fields, f.mask = 0xF0#8 ∧ f.shift = some 4)) ∧
      (a = 0x12#8 → ∃ f ∈ d.fields, f.mask = 0x08#8 ∧ f.kind = .flag) := by
  simp [hasKnownFields, imp_iff_not_or]

theorem descriptor_wf_iff (a : Byte) (d : Descriptor) :
    Descriptor.wf a d = true ↔
      (∀ f ∈ d.fields, Bitfield.wf f = true) ∧ fieldsApart d.fields = true ∧ hasKnownFields a d = true := by
  simp [Descriptor.wf, and_assoc]

/-- Settles O24, constraint by constraint of the admission test. -/
theorem registerMapEntriesAreAdmissible : Obligations.RegisterMapEntriesAreAdmissible := by
  refine ⟨fun a d h => ?_, fun a d hmem hwf => regmap_eq_some_iff.2 ⟨hmem, hwf⟩⟩
  obtain ⟨hfields, hapart, hknown⟩ := (descriptor_wf_iff a d).1 (regmap_eq_some_iff.1 h).2
  refine ⟨fun f hf => run_of_wf (hfields f hf), ?_, (hasKnownFields_iff a d).1 hknown⟩
  exact ((fieldsApart_iff d.fields).1 hapart).imp (fun h => (mayStandBeside_iff _ _).1 h)

end Sys2Proof.Machine

/-! SUPPORT. The two LDO converters share their code (R59). -/

namespace Sys2Proof.Machine

theorem fieldMask_ldo2 : fieldMask .ldo2 = fieldMask .ldo3 <<< 4 := by decide

/-- The LDO2 field is the LDO3 field four bits up, so a code placed in it is (R55). -/
theorem place_ldo2 (c : Nat) : place .ldo2 c = place .ldo3 c <<< 4 := by
  simp only [place, fieldMask_ldo2, fieldShift, BitVec.shiftLeft_zero, BitVec.shiftLeft_and_distrib]

/-- Settles O14: one domain and one code for both fields, by the constant table of R95. -/
theorem ldo2ReusesLdo3 : Obligations.Ldo2ReusesLdo3 := by
  intro v
  simp only [encodeQuantity, linearOf, place_ldo2]
  split
  · rfl
  · rfl

end Sys2Proof.Machine

/-! SUPPORT. NAME: its command word, its meaning and the two responses of the lookup (R75, R76, R79). -/

namespace Sys2Proof.Machine

open Sys2Proof.Config (Descriptor)

theorem encode_name (reg : Byte) : encode (.name reg) = 0x10000000#32 ||| (reg.setWidth 32 <<< 16) := by
  have hop : fieldAt 0x1#4 28 = 0x10000000#32 := by decide
  rw [encode, formatN, hop, fieldAt]

/-- NAME asks nothing of the state: REG is written and the lookup's response sent, in any PHASE. -/
theorem exec_name (reg : Byte) (s : State) :
    exec (.name reg) s = .next { s with reg := reg, responses := s.responses ++ [nameResponse (regmap reg)] } := rfl

theorem nameResponse_some (d : Descriptor) : nameResponse (some d) = ⟨0x00000001#32, .name (some d.name)⟩ := by
  have hword : responseWord .ok 0#4 1#16 = 0x00000001#32 := by decide
  simp only [nameResponse, okResponse, Option.isSome_some, if_true, Option.map_some, hword]

theorem nameResponse_none : nameResponse none = ⟨0x00000000#32, .name none⟩ := by
  have hword : responseWord .ok 0#4 0#16 = 0x00000000#32 := by decide
  simp only [nameResponse, okResponse, Option.isSome_none, Bool.false_eq_true, if_false, Option.map_none, hword]

/-- Settles O8, for an address with an entry and for one without. -/
theorem nameLooksUpTheRegisterMap : Obligations.NameLooksUpTheRegisterMap := by
  refine fun reg s _ => ⟨encode_name reg, fun d hentry => ?_, fun habsent => ?_⟩
  · rw [exec_name, hentry, nameResponse_some]
  · rw [exec_name, habsent, nameResponse_none]

end Sys2Proof.Machine

/-! SUPPORT. The converters and the decoders by their field: one command word, one meaning and one response each, chosen before
the state (R85, R103), and the raw value a code is placed as (R53, R56). -/

namespace Sys2Proof.Machine

/-- The converter command of a field (R55, R65). -/
def converter : Field → Int → Instr
  | .dcdc => .convDcdc
  | .ldo3 => .convLdo3
  | .ldo2 => .convLdo2
  | .chgv => .convChgv
  | .chgi => .convChgi

/-- The decoder command of a field (R55, R65). -/
def decoder : Field → Byte → Instr
  | .dcdc => .decDcdc
  | .ldo3 => .decLdo3
  | .ldo2 => .decLdo2
  | .chgv => .decChgv
  | .chgi => .decChgi

theorem exec_converter (f : Field) (v : Int) (s : State) : exec (converter f v) s = .next (convert f v s) := by
  cases f <;> rfl

theorem exec_decoder (f : Field) (b : Byte) (s : State) : exec (decoder f b) s = .next (decodeField f b s) := by
  cases f <;> rfl

theorem encode_converter (f : Field) (v : Int) : encode (converter f v) = formatC 0x2#4 (fieldFunc f) (valField v) := by
  cases f <;> rfl

/-- The commands that are neither a bit-update nor a lookup are the converters and the decoders. -/
theorem eq_converter_or_decoder {i : Instr} (hi : updateOf i = none) (hn : ∀ reg, i ≠ .name reg) :
    (∃ f v, i = converter f v) ∨ (∃ f b, i = decoder f b) := by
  cases i with
  | name reg => exact absurd rfl (hn reg)
  | convDcdc v => exact .inl ⟨.dcdc, v, rfl⟩
  | convLdo3 v => exact .inl ⟨.ldo3, v, rfl⟩
  | convLdo2 v => exact .inl ⟨.ldo2, v, rfl⟩
  | convChgv v => exact .inl ⟨.chgv, v, rfl⟩
  | convChgi v => exact .inl ⟨.chgi, v, rfl⟩
  | decDcdc b => exact .inr ⟨.dcdc, b, rfl⟩
  | decLdo3 b => exact .inr ⟨.ldo3, b, rfl⟩
  | decLdo2 b => exact .inr ⟨.ldo2, b, rfl⟩
  | decChgv b => exact .inr ⟨.chgv, b, rfl⟩
  | decChgi b => exact .inr ⟨.chgi, b, rfl⟩
  | _ => cases hi

/-! ### The responses -/

/-- The response of a converter to its quantity (R84, R85). -/
def converterResponse (f : Field) (v : Int) : Response :=
  match encodeQuantity f v with
  | some raw => okResponse (raw.setWidth 16) .none
  | none => (Error.invalidArgument (valField v) (fieldFunc f)).response

theorem converterResponse_some {f : Field} {v : Int} {raw : Byte} (h : encodeQuantity f v = some raw) :
    converterResponse f v = okResponse (raw.setWidth 16) .none := by simp [converterResponse, h]

theorem converterResponse_none {f : Field} {v : Int} (h : encodeQuantity f v = none) :
    converterResponse f v = (Error.invalidArgument (valField v) (fieldFunc f)).response := by simp [converterResponse, h]

/-- In IDLE a converter sends its response and latches its quantity and its func code, inside its domain and outside it. -/
theorem convert_eq_respond (f : Field) (v : Int) {s : State} (hp : s.phase = .idle) :
    convert f v s = respond (converterResponse f v) { s with val := v, func := fieldFunc f } := by
  rcases convert_cases f v s with ⟨raw, hraw, h⟩ | ⟨hnone, h⟩
  · rw [h, converterResponse_some hraw]
  · rw [h, converterResponse_none hnone, raise_of_idle]
    exact hp

/-- A converter makes no transaction, so its response is never TransportError (R85). -/
theorem statusBits_converterResponse (f : Field) (v : Int) : (converterResponse f v).statusBits ≠ 2#2 := by
  cases h : encodeQuantity f v with
  | some raw => simp [converterResponse_some h, okResponse, Status.code]
  | none => simp [converterResponse_none h, Error.response, Status.code]

theorem statusBits_okResponse (data : BitVec 16) (side : SideBand) : (okResponse data side).statusBits = 0#2 :=
  statusBits_responseWord .ok 0#4 data side

/-- Settles O20: the response of a converter by its quantity, and of a decoder by its byte. -/
theorem pureCommandsDependOnOperandsOnly : Obligations.PureCommandsDependOnOperandsOnly := by
  intro i hi hn
  rcases eq_converter_or_decoder hi hn with ⟨f, v, rfl⟩ | ⟨f, b, rfl⟩
  · refine ⟨converterResponse f v, statusBits_converterResponse f v, fun hdec => ?_, fun s hp => ?_⟩
    · cases f <;> simp [converter] at hdec
    · exact ⟨_, exec_converter f v s, by rw [convert_eq_respond f v hp]; rfl⟩
  · have hok := statusBits_okResponse (BitVec.ofInt 16 (decodeQuantity f b)) .none
    exact ⟨_, by rw [hok]; decide, fun _ => hok, fun s _ => ⟨_, exec_decoder f b s, rfl⟩⟩

/-! ### The words -/

/-- A field at bit 0 is the value itself (R60, R67). -/
theorem fieldAt_zero {n : Nat} (x : BitVec n) : fieldAt x 0 = x.setWidth 32 := BitVec.shiftLeft_zero _

/-- The response of a raw value is its byte, zero above it (R67). -/
theorem okResponse_byte (raw : Byte) : okResponse (raw.setWidth 16) .none = ⟨raw.setWidth 32, .none⟩ := by
  have hfixed : fieldAt Status.ok.code 30 ||| fieldAt 0#4 26 = 0#32 := by decide
  rw [okResponse, responseWord, hfixed, BitVec.zero_or, fieldAt_zero, BitVec.setWidth_setWidth (by decide)]

theorem ofInt_toNat_byte (raw : Byte) : BitVec.ofInt 32 raw.toNat = raw.setWidth 32 := by
  rw [BitVec.ofInt_natCast, BitVec.ofNat_toNat]

/-! ### Codes and their places -/

theorem fieldMask_eq_shiftLeft (f : Field) :
    fieldMask f = BitVec.ofNat 8 (2 ^ fieldWidth f - 1) <<< fieldShift f := by
  cases f <;> decide

/-- Placing a code keeps the bits the field has room for and shifts them to its position (R53, R55). -/
theorem toNat_place (f : Field) (c : Nat) : (place f c).toNat = c % 2 ^ fieldWidth f * 2 ^ fieldShift f := by
  have hplace : place f c = BitVec.ofNat 8 (c % 2 ^ fieldWidth f) <<< fieldShift f := by
    rw [place, fieldMask_eq_shiftLeft, ← BitVec.shiftLeft_and_distrib, ← BitVec.ofNat_and,
      Nat.and_two_pow_sub_one_eq_mod]
  rw [hplace, BitVec.toNat_shiftLeft, BitVec.toNat_ofNat, Nat.shiftLeft_eq]
  cases f <;> simp only [fieldWidth, fieldShift] <;> omega

theorem encodeQuantity_linear {f : Field} {l : Linear} (hl : linearOf f = some l) (v : Int) :
    encodeQuantity f v = if l.inDomain v then some (place f (l.code v)) else none := by
  simp [encodeQuantity, hl]

theorem inDomain_half_open {l : Linear} (h : l.hiClosed = false) (v : Int) :
    l.inDomain v = true ↔ l.lo ≤ v ∧ v < l.hi := by simp [Linear.inDomain, h]

theorem inDomain_closed {l : Linear} (h : l.hiClosed = true) (v : Int) :
    l.inDomain v = true ↔ l.lo ≤ v ∧ v ≤ l.hi := by simp [Linear.inDomain, h]

/-- Inside its domain the code of a linear field is the floor of the formula, and the field has room for it (R55, R95). -/
theorem code_of_inDomain {f : Field} {l : Linear} {v : Int} (hl : linearOf f = some l) (hv : l.inDomain v = true) :
    (l.code v : Int) = (v - l.offset) / l.step ∧ l.code v < 2 ^ fieldWidth f := by
  cases f with
  | chgv => cases hl
  | chgi =>
    cases hl
    have hbounds := (inDomain_closed rfl v).1 hv
    simp only [Linear.code, fieldWidth] at hbounds ⊢
    omega
  | _ =>
    cases hl
    have hbounds := (inDomain_half_open rfl v).1 hv
    simp only [Linear.code, fieldWidth] at hbounds ⊢
    omega

/-! ### The two kinds of converter -/

section

variable (f : Field) {op failed : Word} {domain : Int → Prop} {raw : Int → Int} {limit : Int}
  (hop : fieldAt 0x2#4 28 ||| fieldAt (fieldFunc f) 24 = op)
  (hfailed : fieldAt Status.invalidArgument.code 30 ||| fieldAt (fieldFunc f) 26 = failed)

include hop hfailed

/-- A converter as R89 to R93 say it, from what its field's converter answers inside the domain and outside it. -/
theorem converts_of_encodeQuantity
    (hin : ∀ v, domain v → raw v < limit ∧ ∃ b, encodeQuantity f v = some b ∧ (b.toNat : Int) = raw v)
    (hout : ∀ v, ¬ domain v → encodeQuantity f v = none) :
    Converts (converter f) op (fieldFunc f) domain raw limit failed := by
  intro v s hp
  refine ⟨?_, fun hv => ?_, fun hv => ?_⟩
  · rw [encode_converter, formatC, hop, fieldAt_zero, valField]
  · obtain ⟨hlimit, b, hb, hraw⟩ := hin v hv
    refine ⟨by omega, hlimit, ?_⟩
    rw [exec_converter, convert_eq_respond f v hp, converterResponse_some hb, okResponse_byte, ← hraw, ofInt_toNat_byte]
    rfl
  · rw [exec_converter, convert_eq_respond f v hp, converterResponse_none (hout v hv), Error.response, responseWord,
      hfailed, fieldAt_zero, valField]
    rfl

/-- A linear converter by its row of the constant table (R95). -/
theorem converts_of_linear {l : Linear} (hl : linearOf f = some l)
    (hdomain : ∀ v, l.inDomain v = true ↔ domain v)
    (hraw : ∀ v, raw v = (v - l.offset) / l.step * 2 ^ fieldShift f)
    (hlimit : ∀ v, domain v → raw v < limit) :
    Converts (converter f) op (fieldFunc f) domain raw limit failed := by
  refine converts_of_encodeQuantity f hop hfailed (fun v hv => ⟨hlimit v hv, place f (l.code v), ?_, ?_⟩) (fun v hv => ?_)
  · rw [encodeQuantity_linear hl, if_pos ((hdomain v).2 hv)]
  · obtain ⟨hcode, hroom⟩ := code_of_inDomain hl ((hdomain v).2 hv)
    rw [toNat_place, Nat.mod_eq_of_lt hroom, hraw, ← hcode]
    push_cast
    rfl
  · rw [encodeQuantity_linear hl, if_neg (mt (hdomain v).1 hv)]

end

/-! ### The five converters -/

/-- Settles O9, by the table's row for the DC-DC voltage. -/
theorem convDcdcConverts : Obligations.ConvDcdcConverts :=
  converts_of_linear .dcdc (by decide) (by decide) rfl (inDomain_half_open rfl)
    (fun v => by simp [fieldShift]) (fun v hv => by omega)

/-- Settles O10, by the table's row for LDO3. -/
theorem convLdo3Converts : Obligations.ConvLdo3Converts :=
  converts_of_linear .ldo3 (by decide) (by decide) rfl (inDomain_half_open rfl)
    (fun v => by simp [fieldShift]) (fun v hv => by omega)

/-- Settles O11, by the table's row for LDO2, whose field is at bits 7:4. -/
theorem convLdo2Converts : Obligations.ConvLdo2Converts :=
  converts_of_linear .ldo2 (by decide) (by decide) rfl (inDomain_half_open rfl)
    (fun v => by simp [fieldShift]) (fun v hv => by omega)

/-- Settles O13, by the table's row for the charge current, the one closed domain. -/
theorem convChgiConverts : Obligations.ConvChgiConverts :=
  converts_of_linear .chgi (by decide) (by decide) rfl (inDomain_closed rfl)
    (fun v => by simp [fieldShift]) (fun v hv => by omega)

/-- Only the four listed targets have a code (R92). -/
theorem encodeQuantity_chgv_eq_none {v : Int} (h : ¬ (v = 4100 ∨ v = 4150 ∨ v = 4200 ∨ v = 4360)) :
    encodeQuantity .chgv v = none := by
  simp only [not_or] at h
  simp [encodeQuantity, linearOf, chgvCode, h]

/-- Settles O12, target by target. -/
theorem convChgvConverts : Obligations.ConvChgvConverts := by
  refine converts_of_encodeQuantity .chgv (by decide) (by decide) ?_ (fun v => encodeQuantity_chgv_eq_none)
  rintro v (rfl | rfl | rfl | rfl)
  · exact ⟨by decide, 0x00#8, by decide, by decide⟩
  · exact ⟨by decide, 0x20#8, by decide, by decide⟩
  · exact ⟨by decide, 0x40#8, by decide, by decide⟩
  · exact ⟨by decide, 0x60#8, by decide, by decide⟩

end Sys2Proof.Machine

/-! SUPPORT. The bit-update commands: their words (R60, R65), and one meaning for all three in each PHASE (R107 to R110). -/

namespace Sys2Proof.Machine

/-! ### The words -/

/-- A word of format B, the fixed part of its row written out. -/
theorem formatB_eq {op : BitVec 4} {me : BitVec 1} {w : Word} (h : fieldAt op 28 ||| fieldAt me 24 = w)
    (reg mask bits : Byte) :
    formatB op me reg mask bits = w ||| (reg.setWidth 32 <<< 16) ||| (mask.setWidth 32 <<< 8) ||| bits.setWidth 32 := by
  rw [formatB, h, fieldAt_zero, fieldAt, fieldAt]

theorem formatB_no_mask {op : BitVec 4} {me : BitVec 1} {w : Word} (h : fieldAt op 28 ||| fieldAt me 24 = w)
    (reg bits : Byte) : formatB op me reg 0#8 bits = w ||| (reg.setWidth 32 <<< 16) ||| bits.setWidth 32 := by
  have hmask : (0#8).setWidth 32 <<< 8 = 0#32 := by decide
  rw [formatB_eq h, hmask, BitVec.or_zero]

/-! ### The sequence -/

/-- In READ a bit-update command makes its read transaction, whichever command it is. -/
theorem exec_update_read {i : Instr} {s : State} {u : UpdateOp × Byte × Byte × Byte} (hp : s.phase = .read)
    (hi : updateOf i = some u) : exec i s = readTransaction s := by
  cases i with
  | setbits reg bits mask => exact bitUpdate_read _ _ hp
  | setbitsD reg bits => exact bitUpdate_read _ _ hp
  | clrbits reg bits => exact bitUpdate_read _ _ hp
  | _ => cases hi

/-- In WRITE a bit-update command writes its f of the byte read, whatever that byte is (R116). -/
theorem exec_update_write {i : Instr} {s : State} {op : UpdateOp} {reg bits mask : Byte} (hp : s.phase = .write)
    (hi : updateOf i = some (op, reg, bits, mask)) :
    exec i s = writeTransaction (writtenByte op s.cur s.bits s.mask) s := by
  have hf : newByte { s with op := op } = writtenByte op s.cur s.bits s.mask := newByte_eq_writtenByte _
  rw [← hf]
  cases i with
  | setbits reg bits mask => cases hi; exact bitUpdate_write _ _ hp
  | setbitsD reg bits => cases hi; exact bitUpdate_write _ _ hp
  | clrbits reg bits => cases hi; exact bitUpdate_write _ _ hp
  | _ => cases hi

/-- Settles O25, phase by phase and answer by answer. -/
theorem updatesRunTheSequence : Obligations.UpdatesRunTheSequence := by
  intro i op reg bits mask hi s
  refine ⟨fun hp => exec_update hp hi, fun hp => ?_, fun hp => ?_⟩
  · rw [exec_update_read hp hi]
    exact ⟨fun _ _ _ => readTransaction_ok, fun _ _ _ => readTransaction_err, readTransaction_waits⟩
  · rw [exec_update_write hp hi]
    exact ⟨fun _ _ _ => writeTransaction_ok, fun _ _ _ => writeTransaction_err, writeTransaction_waits _⟩

/-- Settles O26: SETBITS runs the sequence of every bit-update command, its mask the one given. -/
theorem setbitsReadsAndWrites : Obligations.SetbitsReadsAndWrites :=
  fun reg bits mask => ⟨formatB_eq (by decide) reg mask bits, updatesRunTheSequence _ .set reg bits mask rfl⟩

/-- Settles O27: SETBITS.D runs the sequence of every bit-update command, its mask a copy of its bits. -/
theorem setbitsDefaultReadsAndWrites : Obligations.SetbitsDefaultReadsAndWrites :=
  fun reg bits => ⟨formatB_no_mask (by decide) reg bits, updatesRunTheSequence _ .setDefault reg bits bits rfl⟩

/-- Settles O28: CLRBITS runs the sequence of every bit-update command, and leaves ME. -/
theorem clrbitsReadsAndWrites : Obligations.ClrbitsReadsAndWrites :=
  fun reg bits => ⟨formatB_no_mask (by decide) reg bits, updatesRunTheSequence _ .clear reg bits bits rfl⟩

end Sys2Proof.Machine

/-! SUPPORT. A failed transaction ends its command, and a block that is done does nothing more (R119 to R121). -/

namespace Sys2Proof.Machine

/-- Every operand of a bit-update command is legal (R123). -/
theorem wf_of_updateOf {i : Instr} {u : UpdateOp × Byte × Byte × Byte} (hi : updateOf i = some u) : i.wf = true := by
  cases i with
  | setbits reg bits mask => rfl
  | setbitsD reg bits => rfl
  | clrbits reg bits => rfl
  | _ => cases hi

/-- The answer at the head of the port is a read that succeeds. -/
theorem readsOk_of_answer {s : State} {a : ReadAnswer} {c : Byte} {fx : Effects} {rs : List ReadAnswer}
    (hr : s.readAnswers = a :: rs) (ha : a = .bytes [c] fx ∨ (a = .held fx ∧ c = heldByte s.mem s.reg)) :
    ReadsOk s c fx rs := by
  rcases ha with rfl | ⟨rfl, hc⟩
  · exact .inl hr
  · exact .inr ⟨hr, hc⟩

/-- The block's step on a read that succeeds, the byte given or held. -/
theorem blockStep_read_ok {s : State} {c : Byte} {fx : Effects} {rest : List ReadAnswer} (hp : s.phase = .read)
    (hr : ReadsOk s c fx rest) :
    blockStep s = .next { s with
      readAnswers := rest, outstanding := false, cur := c, phase := .write
      mem := s.mem.writes fx
      trace := s.trace ++ [.readBytes s.reg 1 (.ok c)] } :=
  (blockStep_read hp).trans (readTransaction_ok hr)

/-- With nobody else to move, a block in IDLE without a word stays as it is. -/
theorem run_quiet (n : Nat) {s : State} (ht : s.turns = []) (hp : s.phase = .idle) (hc : s.commands = []) :
    run n s = .next s := by
  induction n with
  | zero => rfl
  | succ n ih => rw [run_next n ((step_no_turn ht).trans (blockStep_waits hp hc)), ih]

/-- A run that leaves the block in IDLE without a word, and nobody else to move, ends there however long it goes on. -/
theorem run_then_quiet {m : Nat} (n : Nat) {s t : State} (h : run m s = .next t) (ht : t.turns = []) (hp : t.phase = .idle)
    (hc : t.commands = []) : run (m + n) s = .next t :=
  (run_add n h).trans (run_quiet n ht hp hc)

/-- Settles O30: accepted, the failed read, and then quiet. -/
theorem failedReadEndsTheCommand : Obligations.FailedReadEndsTheCommand := by
  intro i op reg bits mask s e fx rs n hu ht hp hc hr
  have haccept := step_accepts ht hp (wf_of_updateOf hu) hu hc
  have hread := step_read_err (s := accepted op reg bits mask [] s) ht rfl hr
  have hrun := (run_next 1 haccept).trans (run_next 0 hread)
  refine (run_then_quiet n hrun ht rfl rfl).trans ?_
  rw [hp]
  rfl

/-- Outside WRITE, CUR is dead (R11, R120). -/
theorem sameButDeadLatches_cur {s : State} (hp : s.phase ≠ .write) (c : Byte) :
    SameButDeadLatches s { s with cur := c } where
  phase := rfl
  outstanding := rfl
  mem := rfl
  commands := rfl
  responses := rfl
  trace := rfl
  readAnswers := rfl
  writeAnswers := rfl
  turns := rfl
  command _ := ⟨rfl, rfl, rfl, rfl⟩
  cur h := absurd h hp

/-- Settles O31: accepted, the read, the failed write, and then quiet; the answer says what the device holds. -/
theorem failedWriteEndsTheCommand : Obligations.FailedWriteEndsTheCommand := by
  intro i op reg bits mask s a c fx e took rs was n hu ht hp hc hr ha hw
  have haccept := step_accepts ht hp (wf_of_updateOf hu) hu hc
  have hread := (step_no_turn (s := accepted op reg bits mask [] s) ht).trans
    (blockStep_read_ok rfl (readsOk_of_answer hr ha))
  have hrun := (run_next 2 haccept).trans ((run_next 1 hread).trans (run_next 0 (step_write_err ht rfl hw)))
  refine ⟨_, run_then_quiet n hrun ht rfl rfl, fun hnone => ?_, ?_,
    sameButDeadLatches_cur (by simp), ?_⟩
  · obtain rfl : took = false := hnone e took (by simp [hw])
    rfl
  · cases took with
    | false => exact .inl rfl
    | true => exact .inr rfl
  · simp [accepted, acceptUpdate, hp]

/-! ### After the end of a run -/

theorem step_of_run_succ {n : Nat} {s u : State} (h : run (n + 1) s = .next u) :
    ∃ t, step s = .next t ∧ run n t = .next u := by
  cases hs : step s with
  | next t => exact ⟨t, rfl, (run_next n hs).symm.trans h⟩
  | fault x => simp [run, hs] at h
  | refused x => simp [run, hs] at h

/-- Once a run has ended, no step shows anything at the ports, whoever moves. -/
theorem step_keeps_runEnded {s t : State} (hs : RunEnded s) (h : step s = .next t) :
    RunEnded t ∧ t.trace = s.trace ∧ t.responses = s.responses := by
  obtain ⟨hc, hp, ho⟩ := hs
  rcases step_cases s with ⟨-, hstep⟩ | ⟨a, b, ts, -, hstep⟩ | ⟨took, ts, -, hstep⟩
  · rw [blockStep_waits (s := afterTurn s) hp hc] at hstep
    cases hstep.symm.trans h
    exact ⟨⟨hc, hp, ho⟩, rfl, rfl⟩
  · cases hstep.symm.trans h
    exact ⟨⟨hc, hp, ho⟩, rfl, rfl⟩
  · rcases resetBlock_cases took (afterTurn s) with ⟨-, hreset⟩ | ⟨hout, -⟩ | ⟨hout, -⟩
    · rw [hreset] at hstep
      cases hstep.symm.trans h
      exact ⟨⟨hc, rfl, rfl⟩, rfl, rfl⟩
    all_goals cases ho.symm.trans hout

theorem run_keeps_runEnded {n : Nat} {s u : State} (hs : RunEnded s) (h : run n s = .next u) :
    RunEnded u ∧ u.trace = s.trace ∧ u.responses = s.responses := by
  induction n generalizing s with
  | zero => cases h; exact ⟨hs, rfl, rfl⟩
  | succ n ih =>
    obtain ⟨t, hstep, hrun⟩ := step_of_run_succ h
    obtain ⟨ht, htrace, hresponses⟩ := step_keeps_runEnded hs hstep
    obtain ⟨hu, htrace', hresponses'⟩ := ih ht hrun
    exact ⟨hu, htrace'.trans htrace, hresponses'.trans hresponses⟩

/-- A response sent with no word presented is the end of the command in progress, and of the run. -/
theorem runEnded_of_response {s t : State} {r : Response} (hc : s.commands = []) (h : step s = .next t)
    (hr : t.responses = s.responses ++ [r]) : RunEnded t := by
  have hsent : t.responses ≠ s.responses := by simp [hr]
  rcases step_cases s with ⟨-, hstep⟩ | ⟨a, b, ts, -, hstep⟩ | ⟨took, ts, -, hstep⟩
  · rw [hstep] at h
    rcases phase_cases s with hp | hp | hp
    · cases (blockStep_waits (s := afterTurn s) hp hc).symm.trans h
      exact absurd rfl hsent
    · rcases blockStep_read_next (s := afterTurn s) hp h with ⟨-, rfl⟩ | ⟨b, fx, rest, -, rfl⟩ | ⟨e, fx, rest, -, rfl⟩
      · exact absurd rfl hsent
      · exact absurd rfl hsent
      · exact ⟨hc, rfl, rfl⟩
    · rcases blockStep_write_next (s := afterTurn s) hp h with
        ⟨-, rfl⟩ | ⟨took, fx, rest, -, rfl⟩ | ⟨e, took, rest, -, rfl⟩
      · exact absurd rfl hsent
      · exact ⟨hc, rfl, rfl⟩
      · exact ⟨hc, rfl, rfl⟩
  · cases hstep.symm.trans h
    exact absurd rfl hsent
  · cases hstep.symm.trans h
    exact absurd (resetBlock_responses took (afterTurn s)) hsent

/-- Settles O32: the response ended the run, and an ended run shows nothing more. -/
theorem nothingFollowsAFailure : Obligations.NothingFollowsAFailure := by
  intro s t u e n hstep hresponse hc hrun
  obtain ⟨⟨-, hphase, -⟩, htrace, hresponses⟩ :=
    run_keeps_runEnded (runEnded_of_response hc hstep hresponse) hrun
  exact ⟨htrace, hresponses, hphase⟩

end Sys2Proof.Machine

/-! SUPPORT. Other actors move between the steps of a bit-update command (R49, R117). -/

namespace Sys2Proof.Machine

/-- Once the other actors of a gap have moved and the block's turn is taken: their bytes are left, and nothing else has
changed. -/
def afterGap (ps : List (Byte × Byte)) (gaps : List (List (Byte × Byte))) (s : State) : State :=
  { s with turns := blockAfterEach gaps, mem := s.mem.writes ps }

/-- A gap and the block's step after it: the other actors' bytes are left, then the block moves. -/
theorem run_gap {ps : List (Byte × Byte)} {gaps : List (List (Byte × Byte))} {s t : State}
    (h : s.turns = blockAfterEach (ps :: gaps))
    (hstep : blockStep (afterGap ps gaps s) = .next t) :
    run (blockAfterEach (ps :: gaps)).length s = run (blockAfterEach gaps).length t := by
  have hturns : s.turns = others ps ++ .block :: blockAfterEach gaps := by simp [h, blockAfterEach]
  have hlength : (blockAfterEach (ps :: gaps)).length = ps.length + ((blockAfterEach gaps).length + 1) := by
    simp [← h, hturns, others]
  rw [hlength, run_others ps s _ _ hturns, run_next _ ((step_block rfl).trans hstep)]

/-- In IDLE a bit-update command's word is taken and the command accepted. -/
theorem blockStep_accepts_update {s : State} {i : Instr} {ws : List Word} {op : UpdateOp} {reg bits mask : Byte}
    (hp : s.phase = .idle) (hu : updateOf i = some (op, reg, bits, mask)) (hc : s.commands = encode i :: ws) :
    blockStep s = .next (accepted op reg bits mask ws s) :=
  (blockStep_accepts hp hc (decode_encode (wf_of_updateOf hu))).trans (exec_update hp hu)

/-- The block's step on a write that succeeds, the byte written as claims write it. -/
theorem blockStep_write_ok {s : State} {took : Bool} {fx : Effects} {rest : List WriteAnswer} (hp : s.phase = .write)
    (hw : s.writeAnswers = .ok took fx :: rest) :
    blockStep s = .next { s with
      writeAnswers := rest, outstanding := false, phase := .idle
      mem := (s.mem.takes took s.reg (writtenByte s.op s.cur s.bits s.mask)).writes fx
      trace := s.trace ++ [.writeBytes s.reg [writtenByte s.op s.cur s.bits s.mask] .ok]
      responses := s.responses ++ [⟨0x00000000#32, .none⟩] } := by
  rw [blockStep_write hp, writeTransaction_ok hw, newByte_eq_writtenByte]

/-- A byte the device takes and leaves stands in its register. -/
theorem Memory.read_writes_takes (m : Memory) {a b : Byte} {fx : Effects} (h : ∀ p ∈ fx, p.1 ≠ a) :
    ((m.takes true a b).writes fx).read a = some b := by
  rw [Memory.read_writes_other _ h, Memory.takes_true, Memory.read_write_same]

/-- Settles O39, gap by gap: CUR is latched at the read, and no other actor's turn changes it before the write. -/
theorem updateWritesOverConcurrentChange : Obligations.UpdateWritesOverConcurrentChange := by
  intro i op reg bits mask s before between after ws a c fx rs took fx' was hu hp hc hturns hr ha hw
  have haccept := run_gap hturns (blockStep_accepts_update hp hu hc)
  have hread := run_gap (s := accepted op reg bits mask ws (afterGap before [between, after] s)) rfl
    (blockStep_read_ok rfl (readsOk_of_answer hr ha))
  have hrun := (haccept.trans hread).trans (run_gap rfl (blockStep_write_ok rfl hw))
  rw [hturns]
  refine ⟨_, hrun, rfl, List.append_assoc _ _ _, rfl, fun htook hkeeps => ?_, rfl⟩
  subst htook
  exact Memory.read_writes_takes _ hkeeps

end Sys2Proof.Machine

/-! SUPPORT. Which words are answered InvalidArgument, and which status each response a step sends has (R127, R128). -/

namespace Sys2Proof.Machine

/-! ### A converter outside its domain -/

/-- A converter has no raw value exactly outside the domain of R128. -/
theorem encodeQuantity_eq_none_iff (f : Field) (v : Int) :
    encodeQuantity f v = none ↔ OutOfDomain (converter f v) := by
  have hlinear {l : Linear} (hl : linearOf f = some l) : encodeQuantity f v = none ↔ ¬ l.inDomain v = true := by
    simp [encodeQuantity_linear hl]
  cases f with
  | chgv =>
    refine ⟨fun h => ?_, fun h => encodeQuantity_chgv_eq_none (by simpa [OutOfDomain, converter] using h)⟩
    refine ⟨?_, ?_, ?_, ?_⟩ <;> rintro rfl <;> revert h <;> decide
  | chgi => rw [hlinear rfl, inDomain_closed rfl, not_and_or, not_le, not_le]; rfl
  | _ => rw [hlinear rfl, inDomain_half_open rfl, not_and_or, not_le, not_lt]; rfl

theorem eq_converter_of_outOfDomain {i : Instr} (h : OutOfDomain i) : ∃ f v, i = converter f v := by
  cases i with
  | convDcdc v => exact ⟨.dcdc, v, rfl⟩
  | convLdo3 v => exact ⟨.ldo3, v, rfl⟩
  | convLdo2 v => exact ⟨.ldo2, v, rfl⟩
  | convChgv v => exact ⟨.chgv, v, rfl⟩
  | convChgi v => exact ⟨.chgi, v, rfl⟩
  | _ => exact h.elim

theorem not_outOfDomain_decoder (f : Field) (b : Byte) : ¬ OutOfDomain (decoder f b) := by
  cases f <;> exact id

/-- The rows of R65 that build a converter command fix bits 27:24 to its field's func code. -/
theorem row_of_converter {r : Row} (hr : r ∈ rows) {w : Word} {f : Field} {v : Int} (hb : r.build w = converter f v) :
    r.care.extractLsb' 24 4 = 15#4 ∧ r.value.extractLsb' 24 4 = fieldFunc f ∧ wordVal w = v := by
  simp only [rows, List.mem_append, List.mem_cons, List.not_mem_nil, or_false] at hr
  rcases hr with (rfl | rfl | rfl | rfl | rfl | rfl | rfl) | rfl | rfl | rfl | rfl | rfl | rfl | rfl
  all_goals
    cases f <;> cases hb
    all_goals exact ⟨by decide, by decide, rfl⟩

/-- A converter's word carries its func code at bits 27:24 and its quantity at bits 15:0 (R60, R62). -/
theorem fields_of_decode_converter {w : Word} {f : Field} {v : Int} (h : decode w = .ok (converter f v)) :
    w.extractLsb' 24 4 = fieldFunc f ∧ w.extractLsb' 0 16 = valField v := by
  obtain ⟨r, hr, hfits, hbuild⟩ := row_of_decode h
  obtain ⟨hcare, hvalue, rfl⟩ := row_of_converter hr hbuild.symm
  obtain ⟨-, hfunc, -⟩ := (fits_iff_fields r w).1 hfits
  rw [hcare, hvalue, and_ones4] at hfunc
  exact ⟨hfunc, (BitVec.ofInt_toInt).symm⟩

/-! ### The status of a response -/

theorem statusBits_terr (e : Config.TErr) : (Response.mk 0x80000000#32 (.terr e)).statusBits = 2#2 := by
  rw [← transportError_response]
  exact statusBits_responseWord _ _ _ _

/-- A command answered in IDLE is answered InvalidArgument outside a converter's domain and OK everywhere else. -/
theorem status_of_exec_idle {i : Instr} {s t : State} {r : Response} (hp : s.phase = .idle) (h : exec i s = .next t)
    (hr : t.responses = s.responses ++ [r]) :
    (r.statusBits = 1#2 ∧ OutOfDomain i) ∨ (r.statusBits = 0#2 ∧ ¬ OutOfDomain i) := by
  rcases hu : updateOf i with _ | ⟨op, reg, bits, mask⟩
  · by_cases hn : ∃ reg, i = .name reg
    · obtain ⟨reg, rfl⟩ := hn
      cases (exec_name reg s).symm.trans h
      obtain rfl : nameResponse (regmap reg) = r := by simpa using hr
      exact .inr ⟨statusBits_okResponse _ _, id⟩
    · rcases eq_converter_or_decoder hu (not_exists.1 hn) with ⟨f, v, rfl⟩ | ⟨f, b, rfl⟩
      · cases (exec_converter f v s).symm.trans h
        obtain rfl : converterResponse f v = r := by simpa [convert_eq_respond f v hp] using hr
        rw [← encodeQuantity_eq_none_iff]
        cases hv : encodeQuantity f v with
        | none => exact .inl ⟨by rw [converterResponse_none hv]; exact statusBits_responseWord _ _ _ _, rfl⟩
        | some raw => exact .inr ⟨by rw [converterResponse_some hv]; exact statusBits_okResponse _ _, nofun⟩
      · cases (exec_decoder f b s).symm.trans h
        obtain rfl : okResponse (BitVec.ofInt 16 (decodeQuantity f b)) .none = r := by simpa [decodeField] using hr
        exact .inr ⟨statusBits_okResponse _ _, not_outOfDomain_decoder f b⟩
  · cases (exec_update hp hu).symm.trans h
    simp at hr

/-- The transaction of this PHASE finds `Err(e)` (R129). -/
def TransactionFails (s : State) (e : Config.TErr) : Prop :=
  (s.phase = .read ∧ ∃ fx rs, s.readAnswers = .err e fx :: rs) ∨
  (s.phase = .write ∧ ∃ took was, s.writeAnswers = .err e took :: was)

theorem step_of_transactionFails {s : State} {e : Config.TErr} (hb : BlockMoves s) (h : TransactionFails s e) :
    ∃ t, step s = .next t ∧ t.responses = s.responses ++ [⟨0x80000000#32, .terr e⟩] := by
  rw [step_of_blockMoves hb]
  rcases h with ⟨hp, fx, rs, hr⟩ | ⟨hp, took, was, hw⟩
  · exact ⟨_, (blockStep_read (s := afterTurn s) hp).trans (readTransaction_err hr), rfl⟩
  · exact ⟨_, (blockStep_write (s := afterTurn s) hp).trans (writeTransaction_err hw), rfl⟩

/-- The responses a step can send, by PHASE: to a word taken in IDLE, to a transaction that fails, and to a write that
succeeds. -/
theorem response_cases {s t : State} {r : Response} (h : step s = .next t) (hr : t.responses = s.responses ++ [r]) :
    BlockMoves s ∧
    ((s.phase = .idle ∧ ∃ w ws, s.commands = w :: ws ∧
        ((decode w = .error .illegalCommand ∧ r.statusBits = 3#2) ∨
         ∃ i, decode w = .ok i ∧ ((r.statusBits = 1#2 ∧ OutOfDomain i) ∨ (r.statusBits = 0#2 ∧ ¬ OutOfDomain i)))) ∨
     (∃ e, TransactionFails s e ∧ r = ⟨0x80000000#32, .terr e⟩) ∨
     (s.phase = .write ∧ r = ⟨0x00000000#32, .none⟩)) := by
  have hsent : t.responses ≠ s.responses := by simp [hr]
  have heq {q : Response} (hq : t.responses = s.responses ++ [q]) : r = q := by simpa using hr.symm.trans hq
  rcases phaseMovesAreTheOnlyOnes s t h with ⟨-, -, hn⟩ | ⟨-, -, hn⟩ | ⟨hb, hmove⟩
  · exact absurd hn hsent
  · exact absurd hn hsent
  refine ⟨hb, ?_⟩
  rcases hmove with ⟨-, -, -, hn⟩ | ⟨hp, ⟨w, ws, hc, -⟩, -⟩ | ⟨-, -, -, hn⟩ | ⟨-, -, -, hn⟩ | ⟨-, -, -, hn⟩ |
    ⟨hp, -, e, fx, rs, he, hq⟩ | ⟨-, -, -, hn⟩ | ⟨hp, -, -, hq⟩ | ⟨hp, -, e, took, was, he, hq⟩
  · exact absurd hn hsent
  · refine .inl ⟨hp, w, ws, hc, ?_⟩
    rcases hd : decode w with ⟨⟩ | i
    · cases (step_illegal hb hp hc hd).symm.trans h
      obtain rfl := heq rfl
      exact .inl ⟨rfl, by decide⟩
    · exact .inr ⟨i, rfl, status_of_exec_idle (s := { afterTurn s with commands := ws }) hp
        ((step_takes_decoded hb hp hc hd).symm.trans h) hr⟩
  · exact absurd hn hsent
  · exact absurd hn hsent
  · exact absurd hn hsent
  · exact .inr (.inl ⟨e, .inl ⟨hp, fx, rs, he⟩, heq hq⟩)
  · exact absurd hn hsent
  · exact .inr (.inr ⟨hp, heq hq⟩)
  · exact .inr (.inl ⟨e, .inr ⟨hp, took, was, he⟩, heq hq⟩)

/-! ### InvalidArgument and TransportError -/

/-- A converter's word with a quantity outside the domain is taken and answered InvalidArgument: the whole next state. -/
theorem step_outOfDomain {s : State} {w : Word} {ws : List Word} {f : Field} {v : Int} (hb : BlockMoves s)
    (hp : s.phase = .idle) (hc : s.commands = w :: ws) (hd : decode w = .ok (converter f v))
    (ho : OutOfDomain (converter f v)) :
    step s = .next { afterTurn s with
      commands := ws, val := v, func := fieldFunc f
      responses := s.responses ++ [(Error.invalidArgument (valField v) (fieldFunc f)).response] } := by
  rw [step_takes_decoded hb hp hc hd, exec_converter,
    convert_eq_respond f v (s := { afterTurn s with commands := ws }) hp,
    converterResponse_none ((encodeQuantity_eq_none_iff f v).2 ho)]
  rfl

/-- The payload of InvalidArgument, read back from the word that was answered, and the frame. -/
theorem invalidArgument_answer {s : State} {w : Word} {ws : List Word} {i : Instr} (hb : BlockMoves s)
    (hp : s.phase = .idle) (hc : s.commands = w :: ws) (hd : decode w = .ok i) (ho : OutOfDomain i) :
    ∃ r : Response, r.statusBits = 1#2 ∧ r.data = w.extractLsb' 0 16 ∧ r.aux = w.extractLsb' 24 4 ∧ r.side = .none ∧
      ∃ t, step s = .next t ∧ t = { afterTurn s with
        commands := ws, func := t.func, val := t.val, responses := s.responses ++ [r] } := by
  obtain ⟨f, v, rfl⟩ := eq_converter_of_outOfDomain ho
  obtain ⟨hfunc, hval⟩ := fields_of_decode_converter hd
  refine ⟨(Error.invalidArgument (valField v) (fieldFunc f)).response, statusBits_responseWord _ _ _ _, ?_, ?_, rfl,
    _, step_outOfDomain hb hp hc hd ho, rfl⟩
  · rw [hval]; exact data_responseWord _ _ _ _
  · rw [hfunc]; exact aux_responseWord _ _ _ _

/-- Settles O21: of the responses a step can send only that of a converter outside its domain has status 1. -/
theorem invalidArgumentExactlyOutOfDomain : Obligations.InvalidArgumentExactlyOutOfDomain := by
  refine ⟨fun s t h => ⟨?_, ?_⟩, fun s w ws i => invalidArgument_answer⟩
  · rintro ⟨r, hr, hstatus⟩
    obtain ⟨hb, ⟨hp, w, ws, hc, ⟨-, hill⟩ | ⟨i, hd, ⟨-, ho⟩ | ⟨hok, -⟩⟩⟩ | ⟨e, -, rfl⟩ | ⟨-, rfl⟩⟩ := response_cases h hr
    · cases hill.symm.trans hstatus
    · exact ⟨hb, hp, w, ws, i, hc, hd, ho⟩
    · cases hok.symm.trans hstatus
    · cases (statusBits_terr e).symm.trans hstatus
    · cases hstatus
  · rintro ⟨hb, hp, w, ws, i, hc, hd, ho⟩
    obtain ⟨r, hstatus, -, -, -, t', ht', hframe⟩ := invalidArgument_answer hb hp hc hd ho
    cases ht'.symm.trans h
    exact ⟨r, congrArg State.responses hframe, hstatus⟩

/-- Settles O33: of the responses a step can send only that of a failed transaction has status 2, and its side-band is the
failure value. -/
theorem transportErrorExactlyOnErr : Obligations.TransportErrorExactlyOnErr := by
  refine fun s t e h => ⟨fun hr => ?_, fun ⟨hb, hfails⟩ => ?_⟩
  · obtain ⟨hb, ⟨-, w, ws, -, ⟨-, hill⟩ | ⟨i, -, ⟨hinv, -⟩ | ⟨hok, -⟩⟩⟩ | ⟨e', hfails, he⟩ | ⟨-, hok⟩⟩ := response_cases h hr
    · cases hill.symm.trans (statusBits_terr e)
    · cases hinv.symm.trans (statusBits_terr e)
    · cases hok.symm.trans (statusBits_terr e)
    · cases he; exact ⟨hb, hfails⟩
    · cases hok
  · obtain ⟨t', ht', hr⟩ := step_of_transactionFails hb hfails
    cases ht'.symm.trans h
    exact hr

end Sys2Proof.Machine

/-! SUPPORT. A reset, a wait for an answer and the end of a wait (R148, R151, R152, R164). -/

namespace Sys2Proof.Machine

/-! ### A reset -/

/-- A reset writes PHASE and the request bit, and of the device what an abandoned transaction leaves (R151, R152). -/
theorem resetBlock_frame (took : Bool) (s : State) :
    resetBlock took s = { s with
      phase := .idle, outstanding := false, mem := (resetBlock took s).mem, trace := (resetBlock took s).trace } := by
  rcases resetBlock_cases took s with ⟨-, h⟩ | ⟨-, -, h⟩ | ⟨-, -, h⟩
  all_goals rw [h]

@[simp] theorem resetBlock_commands (took : Bool) (s : State) : (resetBlock took s).commands = s.commands := by
  rw [resetBlock_frame]

@[simp] theorem resetBlock_readAnswers (took : Bool) (s : State) : (resetBlock took s).readAnswers = s.readAnswers := by
  rw [resetBlock_frame]

@[simp] theorem resetBlock_writeAnswers (took : Bool) (s : State) : (resetBlock took s).writeAnswers = s.writeAnswers := by
  rw [resetBlock_frame]

@[simp] theorem resetBlock_turns (took : Bool) (s : State) : (resetBlock took s).turns = s.turns := by
  rw [resetBlock_frame]

/-- The block that was reset takes the word that waits (R148). -/
theorem step_takes_after_reset {took : Bool} {s : State} {w : Word} {ws : List Word} {i : Instr} (hc : s.commands = w :: ws)
    (hb : BlockMoves (resetBlock took s)) (hd : decode w = .ok i) :
    step (resetBlock took s) = exec i { afterTurn (resetBlock took s) with commands := ws } :=
  step_takes_decoded hb (resetBlock_phase took s) ((resetBlock_commands took s).trans hc) hd

/-- Settles O1: after power-on and after a reset turn PHASE is IDLE, and in IDLE a word that decodes is taken. -/
theorem resetAcceptsCommands : Obligations.ResetAcceptsCommands := by
  refine ⟨rfl, fun w i hd => step_takes_decoded (.inl rfl) rfl rfl hd, fun s took ts hturns => ?_⟩
  exact ⟨_, step_reset hturns, resetBlock_phase _ _, fun w ws i hc => step_takes_after_reset hc⟩

/-- A reset leaves the remote registers alone unless a write was out. -/
theorem resetBlock_mem_of_no_write {took : Bool} {s : State} (h : ¬ (s.outstanding = true ∧ s.phase = .write)) :
    (resetBlock took s).mem = s.mem := by
  rcases resetBlock_cases took s with ⟨-, hreset⟩ | ⟨-, -, hreset⟩ | ⟨ho, hp, -⟩
  · rw [hreset]
  · rw [hreset]
  · exact absurd ⟨ho, hp⟩ h

/-- A write that was out when the reset came was taken, or was not (R152). -/
theorem resetBlock_mem_of_write {took : Bool} {s : State} (ho : s.outstanding = true) (hp : s.phase = .write) :
    (resetBlock took s).mem = s.mem.takes took s.reg (writtenByte s.op s.cur s.bits s.mask) := by
  rcases resetBlock_cases took s with ⟨hquiet, -⟩ | ⟨-, hread, -⟩ | ⟨-, -, hreset⟩
  · simp [ho, hp] at hquiet
  · cases hread.symm.trans hp
  · rw [hreset, newByte_eq_writtenByte]

/-- A reset issues no transaction (R151). -/
theorem resetBlock_trace_of_quiet {took : Bool} {s : State} (ho : s.outstanding = false) :
    (resetBlock took s).trace = s.trace := by
  rcases resetBlock_cases took s with ⟨-, hreset⟩ | ⟨hout, -⟩ | ⟨hout, -⟩
  · rw [hreset]
  all_goals cases ho.symm.trans hout

/-- Settles O41, field by field of the state the reset leaves. -/
theorem resetAbandonsTheCommand : Obligations.ResetAbandonsTheCommand := by
  intro s took ts hturns
  exact ⟨_, step_reset hturns, resetBlock_phase _ _, rfl, resetBlock_responses _ _, resetBlock_commands _ _,
    resetBlock_turns _ _, resetBlock_readAnswers _ _, resetBlock_writeAnswers _ _,
    fun h => resetBlock_mem_of_no_write h, fun ho hp => resetBlock_mem_of_write ho hp, fun ho => resetBlock_trace_of_quiet ho⟩

/-! ### A wait -/

theorem blockStep_read_waits {s : State} (hp : s.phase = .read) (hw : ReadWaits s) :
    blockStep s = .next { s with readAnswers := s.readAnswers.tail, outstanding := true } :=
  (blockStep_read hp).trans (readTransaction_waits hw)

theorem blockStep_write_waits {s : State} (hp : s.phase = .write) (hw : WriteWaits s) :
    blockStep s = .next { s with writeAnswers := s.writeAnswers.tail, outstanding := true } :=
  (blockStep_write hp).trans (writeTransaction_waits _ hw)

/-- A list of answers whose first `n + 1` are all `a`: either there are none, or `a` comes first; and `n` more follow. -/
theorem head_and_tail_of_take_succ {α : Type} {a : α} {l : List α} {n : Nat} (h : ∀ x ∈ l.take (n + 1), x = a) :
    (l = [] ∨ ∃ rest, l = a :: rest) ∧ ∀ x ∈ l.tail.take n, x = a := by
  cases l with
  | nil => simp
  | cons b l =>
    obtain ⟨rfl, hl⟩ := List.forall_mem_cons.1 h
    exact ⟨.inr ⟨l, rfl⟩, hl⟩

/-- As long as a read finds no answer, its request stays out and nothing else happens (R164). -/
theorem run_read_waits (n : Nat) {s : State} (ht : s.turns = []) (hp : s.phase = .read)
    (hw : ∀ r ∈ s.readAnswers.take n, r = .wait) :
    ∃ o, run n s = .next { s with readAnswers := s.readAnswers.drop n, outstanding := o } := by
  induction n generalizing s with
  | zero => exact ⟨s.outstanding, rfl⟩
  | succ n ih =>
    obtain ⟨hwaits, htail⟩ := head_and_tail_of_take_succ hw
    have hstep := (step_no_turn ht).trans (blockStep_read_waits hp hwaits)
    obtain ⟨o, hrun⟩ := ih (s := { s with readAnswers := s.readAnswers.tail, outstanding := true }) ht hp htail
    exact ⟨o, by rw [run_next n hstep, hrun, List.drop_tail]⟩

/-- As long as a write finds no answer, its request stays out and nothing else happens (R164). -/
theorem run_write_waits (n : Nat) {s : State} (ht : s.turns = []) (hp : s.phase = .write)
    (hw : ∀ w ∈ s.writeAnswers.take n, w = .wait) :
    ∃ o, run n s = .next { s with writeAnswers := s.writeAnswers.drop n, outstanding := o } := by
  induction n generalizing s with
  | zero => exact ⟨s.outstanding, rfl⟩
  | succ n ih =>
    obtain ⟨hwaits, htail⟩ := head_and_tail_of_take_succ hw
    have hstep := (step_no_turn ht).trans (blockStep_write_waits hp hwaits)
    obtain ⟨o, hrun⟩ := ih (s := { s with writeAnswers := s.writeAnswers.tail, outstanding := true }) ht hp htail
    exact ⟨o, by rw [run_next n hstep, hrun, List.drop_tail]⟩

/-- While the pending transaction never finds an answer, only the port's own fields move. -/
theorem run_never_answered (n : Nat) {s : State} (ht : s.turns = [])
    (h : (s.phase = .read ∧ ∀ r ∈ s.readAnswers, r = .wait) ∨ (s.phase = .write ∧ ∀ w ∈ s.writeAnswers, w = .wait)) :
    ∃ t, run n s = .next t ∧
      t = { s with outstanding := t.outstanding, readAnswers := t.readAnswers, writeAnswers := t.writeAnswers } := by
  rcases h with ⟨hp, hw⟩ | ⟨hp, hw⟩
  · obtain ⟨o, hrun⟩ := run_read_waits n ht hp (fun r h => hw r (List.mem_of_mem_take h))
    exact ⟨_, hrun, rfl⟩
  · obtain ⟨o, hrun⟩ := run_write_waits n ht hp (fun w h => hw w (List.mem_of_mem_take h))
    exact ⟨_, hrun, rfl⟩

/-! ### The end of a wait by an answer -/

/-- Within `m` steps the command in progress is back in IDLE with one response more, and no word taken. -/
def EndsWithin (m : Nat) (s : State) : Prop :=
  ∃ n t r, n ≤ m ∧ run n s = .next t ∧ t.phase = .idle ∧ t.commands = s.commands ∧ t.responses = s.responses ++ [r]

theorem EndsWithin.mono {m m' : Nat} {s : State} (h : EndsWithin m s) (hm : m ≤ m') : EndsWithin m' s := by
  obtain ⟨n, t, r, hn, hend⟩ := h
  exact ⟨n, t, r, hn.trans hm, hend⟩

/-- Steps that neither take a word nor respond only put the end off. -/
theorem EndsWithin.after_run {k m : Nat} {s u : State} (hrun : run k s = .next u) (hc : u.commands = s.commands)
    (hr : u.responses = s.responses) (h : EndsWithin m u) : EndsWithin (k + m) s := by
  obtain ⟨n, t, r, hn, hrun', hp, hct, hrt⟩ := h
  exact ⟨k + n, t, r, by omega, (run_add n hrun).trans hrun', hp, hct.trans hc, by rw [hrt, hr]⟩

/-- The step that responds is the last. -/
theorem endsWithin_one {s t : State} {r : Response} (hstep : step s = .next t) (hp : t.phase = .idle)
    (hc : t.commands = s.commands) (hr : t.responses = s.responses ++ [r]) : EndsWithin 1 s :=
  ⟨1, t, r, le_rfl, (run_one s).trans hstep, hp, hc, hr⟩

/-- An answered write ends the command, whether it succeeded or failed. -/
theorem endsWithin_write_answered {s : State} {w : WriteAnswer} {rest : List WriteAnswer} (ht : s.turns = [])
    (hp : s.phase = .write) (hs : s.writeAnswers = w :: rest) (hw : w ≠ .wait) : EndsWithin 1 s := by
  cases w with
  | ok took fx => exact endsWithin_one (step_write_ok ht hp hs) rfl rfl rfl
  | err e took => exact endsWithin_one (step_write_err ht hp hs) rfl rfl rfl
  | wait => exact absurd rfl hw

/-- In WRITE the command ends once the write is answered, however late. -/
theorem endsWithin_write {s : State} {k : Nat} {w : WriteAnswer} {rest : List WriteAnswer} (ht : s.turns = [])
    (hp : s.phase = .write) (hs : s.writeAnswers = List.replicate k .wait ++ w :: rest) (hw : w ≠ .wait) :
    EndsWithin (k + 1) s := by
  obtain ⟨o, hrun⟩ := run_write_waits k ht hp (by simp [hs])
  have hdrop : s.writeAnswers.drop k = w :: rest := by simp [hs]
  exact .after_run hrun rfl rfl (endsWithin_write_answered ht hp hdrop hw)

/-- A read answered within the contract is one that succeeds or one that fails (R34). -/
theorem readsOk_or_err {s : State} {r : ReadAnswer} {rest : List ReadAnswer} (hs : s.readAnswers = r :: rest)
    (hr : r ≠ .wait) (hone : ∀ bs fx, r = .bytes bs fx → bs.length = 1) :
    (∃ b fx, ReadsOk s b fx rest) ∨ ∃ e fx, s.readAnswers = .err e fx :: rest := by
  cases r with
  | bytes bs fx =>
    obtain ⟨b, rfl⟩ := List.length_eq_one_iff.1 (hone bs fx rfl)
    exact .inl ⟨b, fx, .inl hs⟩
  | held fx => exact .inl ⟨_, fx, .inr ⟨hs, rfl⟩⟩
  | err e fx => exact .inr ⟨e, fx, hs⟩
  | wait => exact absurd rfl hr

/-- An answered read ends the command if it failed, and leaves the write to be answered if it succeeded. -/
theorem endsWithin_read_answered {s : State} {r : ReadAnswer} {rest : List ReadAnswer} {k : Nat} {w : WriteAnswer}
    {rest' : List WriteAnswer} (ht : s.turns = []) (hp : s.phase = .read) (hs : s.readAnswers = r :: rest) (hr : r ≠ .wait)
    (hone : ∀ bs fx, r = .bytes bs fx → bs.length = 1) (hs' : s.writeAnswers = List.replicate k .wait ++ w :: rest')
    (hw : w ≠ .wait) : EndsWithin (1 + (k + 1)) s := by
  rcases readsOk_or_err hs hr hone with ⟨b, fx, hok⟩ | ⟨e, fx, herr⟩
  · have hstep := (run_one s).trans ((step_no_turn ht).trans (blockStep_read_ok hp hok))
    exact .after_run hstep rfl rfl (endsWithin_write ht rfl hs' hw)
  · exact (endsWithin_one (step_read_err ht hp herr) rfl rfl rfl).mono (by omega)

/-- Under COLLABORATOR_ANSWERS a command in progress ends before the answers do. -/
theorem endsWithin_of_collaboratorAnswers {s : State} (ht : s.turns = []) (hp : s.phase ≠ .idle)
    (h : CollaboratorAnswers s) : EndsWithin (s.readAnswers.length + s.writeAnswers.length) s := by
  obtain ⟨⟨k, r, rest, hs, hr, hone⟩, ⟨k', w, rest', hs', hw⟩⟩ := h
  have hlen : k + 1 ≤ s.readAnswers.length := by simp [hs]
  have hlen' : k' + 1 ≤ s.writeAnswers.length := by simp [hs']
  rcases phase_cases s with hidle | hread | hwrite
  · exact absurd hidle hp
  · obtain ⟨o, hrun⟩ := run_read_waits k ht hread (by simp [hs])
    have hdrop : s.readAnswers.drop k = r :: rest := by simp [hs]
    exact (EndsWithin.after_run hrun rfl rfl (endsWithin_read_answered ht hread hdrop hr hone hs' hw)).mono (by omega)
  · exact (endsWithin_write ht hwrite hs' hw).mono (by omega)

/-! ### The end of a wait by a reset -/

/-- A step that takes no word and does not respond, then a reset: the answers left are left for later requests, and the next
word is taken. -/
theorem run_then_reset {s u : State} {took : Bool} {ts : List Turn} (hstep : step s = .next u)
    (hturns : u.turns = .reset took :: ts) (hc : u.commands = s.commands) (hr : u.responses = s.responses) :
    ∃ t, run 2 s = .next t ∧ t.phase = .idle ∧ t.responses = s.responses ∧ t.commands = s.commands ∧ t.turns = ts ∧
      t.readAnswers = u.readAnswers ∧ t.writeAnswers = u.writeAnswers ∧
      ∀ w ws i, s.commands = w :: ws → BlockMoves t → decode w = .ok i →
        step t = exec i { afterTurn t with commands := ws } := by
  refine ⟨resetBlock took { u with turns := ts }, ?_, rfl, (resetBlock_responses _ _).trans hr,
    (resetBlock_commands _ _).trans hc, resetBlock_turns _ _, resetBlock_readAnswers _ _, resetBlock_writeAnswers _ _, ?_⟩
  · rw [run_next 1 hstep, run_one, step_reset hturns]
  · exact fun w ws i hw => step_takes_after_reset (s := { u with turns := ts }) (hc.trans hw)

/-- Settles O43: the request stays out while no answer comes; an answer ends the wait, and so does a reset. -/
theorem waitsUntilAnswered : Obligations.WaitsUntilAnswered := by
  refine ⟨fun s n => run_never_answered n, fun s => endsWithin_of_collaboratorAnswers, fun s took ts hturns h => ?_⟩
  rcases h with ⟨hp, hw⟩ | ⟨hp, hw⟩
  · have hwait := (step_block hturns).trans (blockStep_read_waits (s := { s with turns := .reset took :: ts }) hp hw)
    obtain ⟨t, hrun, hidle, hr, hc, ht, hreads, hwrites, hnext⟩ := run_then_reset hwait rfl rfl rfl
    exact ⟨t, hrun, hidle, hr, hc, ht, fun _ => ⟨hreads, hwrites⟩, fun hp' => (nomatch hp.symm.trans hp'), hnext⟩
  · have hwait := (step_block hturns).trans (blockStep_write_waits (s := { s with turns := .reset took :: ts }) hp hw)
    obtain ⟨t, hrun, hidle, hr, hc, ht, hreads, hwrites, hnext⟩ := run_then_reset hwait rfl rfl rfl
    exact ⟨t, hrun, hidle, hr, hc, ht, fun hp' => (nomatch hp.symm.trans hp'), fun _ => ⟨hreads, hwrites⟩, hnext⟩

end Sys2Proof.Machine

/-! SUPPORT. The encoder undoes the decoder: the bits a row cares about and the operands it builds its command from make up the
whole word (R60, R65). -/

namespace Sys2Proof

/-- A stretch of bits put back where it was taken from. -/
theorem fieldAt_extractLsb' (w : Word) (lsb n : Nat) :
    fieldAt (w.extractLsb' lsb n) lsb = w &&& fieldAt (BitVec.allOnes n) lsb := by
  ext i hi
  rw [BitVec.getElem_and, getElem_fieldAt, getElem_fieldAt]
  by_cases h : lsb ≤ i
  · simp [h, BitVec.getLsbD_extractLsb', ← BitVec.getLsbD_eq_getElem hi, Bool.and_comm]
  · simp [h]

theorem formatN_of_fixed {op : BitVec 4} {w : Word} (h : w &&& 0xFF00FFFF#32 = fieldAt op 28) :
    formatN op (wordReg w) = w := by
  have hall : 0xFF00FFFF#32 ||| fieldAt (BitVec.allOnes 8) 16 = BitVec.allOnes 32 := by decide
  rw [formatN, wordReg, fieldAt_extractLsb', ← h, ← BitVec.and_or_distrib_left, hall, BitVec.and_allOnes]

theorem formatC_of_fixed {op func : BitVec 4} {w : Word} (h : w &&& 0xFFFF0000#32 = fieldAt op 28 ||| fieldAt func 24) :
    formatC op func (valField (wordVal w)) = w := by
  have hall : 0xFFFF0000#32 ||| fieldAt (BitVec.allOnes 16) 0 = BitVec.allOnes 32 := by decide
  rw [formatC, valField, wordVal, BitVec.ofInt_toInt, fieldAt_extractLsb', ← h, ← BitVec.and_or_distrib_left, hall,
    BitVec.and_allOnes]

theorem formatD_of_fixed {op func : BitVec 4} {w : Word} (h : w &&& 0xFFFFFF00#32 = fieldAt op 28 ||| fieldAt func 24) :
    formatD op func (wordByte w) = w := by
  have hall : 0xFFFFFF00#32 ||| fieldAt (BitVec.allOnes 8) 0 = BitVec.allOnes 32 := by decide
  rw [formatD, wordByte, fieldAt_extractLsb', ← h, ← BitVec.and_or_distrib_left, hall, BitVec.and_allOnes]

theorem formatB_of_fixed {op : BitVec 4} {me : BitVec 1} {w : Word}
    (h : w &&& 0xFF000000#32 = fieldAt op 28 ||| fieldAt me 24) :
    formatB op me (wordReg w) (wordMask w) (wordByte w) = w := by
  have hall : 0xFF000000#32 ||| fieldAt (BitVec.allOnes 8) 16 ||| fieldAt (BitVec.allOnes 8) 8 |||
      fieldAt (BitVec.allOnes 8) 0 = BitVec.allOnes 32 := by decide
  simp only [formatB, wordReg, wordMask, wordByte, fieldAt_extractLsb', ← h, ← BitVec.and_or_distrib_left, hall,
    BitVec.and_allOnes]

theorem formatB_of_fixed_no_mask {op : BitVec 4} {me : BitVec 1} {w : Word}
    (h : w &&& 0xFF00FF00#32 = fieldAt op 28 ||| fieldAt me 24) :
    formatB op me (wordReg w) 0#8 (wordByte w) = w := by
  have hmask : fieldAt 0#8 8 = 0#32 := by decide
  have hall : 0xFF00FF00#32 ||| fieldAt (BitVec.allOnes 8) 16 ||| fieldAt (BitVec.allOnes 8) 0 = BitVec.allOnes 32 := by
    decide
  simp only [formatB, wordReg, wordByte, fieldAt_extractLsb', hmask, BitVec.or_zero, ← h, ← BitVec.and_or_distrib_left,
    hall, BitVec.and_allOnes]

/-- The `val` field holds 16 bits, so what it stands for fits it (R62). -/
theorem fitsVal_wordVal (w : Word) : fitsVal (wordVal w) = true := by
  have hlo : -32768 ≤ wordVal w := BitVec.le_toInt _
  have hhi : wordVal w < 32768 := BitVec.toInt_lt
  simp only [fitsVal, Bool.and_eq_true, decide_eq_true_eq]
  omega

/-- The command a fitting row builds is well formed, and its word is the one it was built from. -/
theorem wf_and_encode_build {r : Row} (hr : r ∈ rows) {w : Word} (h : w &&& r.care = r.value) :
    (r.build w).wf = true ∧ encode (r.build w) = w := by
  simp only [rows, List.mem_append, List.mem_cons, List.not_mem_nil, or_false] at hr
  rcases hr with (rfl | rfl | rfl | rfl | rfl | rfl | rfl) | rfl | rfl | rfl | rfl | rfl | rfl | rfl
  · exact ⟨rfl, formatN_of_fixed h⟩
  · exact ⟨fitsVal_wordVal w, formatC_of_fixed h⟩
  · exact ⟨fitsVal_wordVal w, formatC_of_fixed h⟩
  · exact ⟨fitsVal_wordVal w, formatC_of_fixed h⟩
  · exact ⟨fitsVal_wordVal w, formatC_of_fixed h⟩
  · exact ⟨fitsVal_wordVal w, formatC_of_fixed h⟩
  · exact ⟨rfl, formatD_of_fixed h⟩
  · exact ⟨rfl, formatD_of_fixed h⟩
  · exact ⟨rfl, formatD_of_fixed h⟩
  · exact ⟨rfl, formatD_of_fixed h⟩
  · exact ⟨rfl, formatD_of_fixed h⟩
  · exact ⟨rfl, formatB_of_fixed h⟩
  · exact ⟨rfl, formatB_of_fixed_no_mask h⟩
  · exact ⟨rfl, formatB_of_fixed_no_mask h⟩

theorem wf_of_decode {w : Word} {i : Instr} (h : decode w = .ok i) : i.wf = true := by
  obtain ⟨r, hr, hfits, rfl⟩ := row_of_decode h
  exact (wf_and_encode_build hr ((fits_iff r w).1 hfits)).1

/-- Settles O4, by the row of each command. -/
theorem encodedCommandDecodes : Obligations.EncodedCommandDecodes := fun _ => decode_encode

/-- Settles O5: the row that fits the word builds a command whose word is that one. -/
theorem decodedWordIsItsEncoding : Obligations.DecodedWordIsItsEncoding := by
  intro w i h
  obtain ⟨r, hr, hfits, rfl⟩ := row_of_decode h
  exact wf_and_encode_build hr ((fits_iff r w).1 hfits)

/-- Settles O6: the seven words are evaluated. -/
theorem sampleWordsDecode : Obligations.SampleWordsDecode := by
  unfold Obligations.SampleWordsDecode
  decide

end Sys2Proof

/-! SUPPORT. The machine invariant at reset and through every step (R33, R47, R55, R62, R64, R67). -/

namespace Sys2Proof.Machine

/-! ### Every response is laid out as R67 says -/

theorem wellFormed_okResponse (data : BitVec 16) : (okResponse data .none).WellFormed := by
  simp [Response.WellFormed, okResponse, Status.code]

theorem wellFormed_nameResponse (entry : Option Config.Descriptor) : (nameResponse entry).WellFormed := by
  cases entry <;> simp [Response.WellFormed, nameResponse, okResponse, Status.code]

theorem wellFormed_invalidArgument (v : BitVec 16) {func : BitVec 4} (h : func.toNat ≤ 4) :
    (Error.invalidArgument v func).response.WellFormed := by
  simp [Response.WellFormed, Error.response, Status.code, h]

theorem wellFormed_transportError (e : Config.TErr) : (⟨0x80000000#32, .terr e⟩ : Response).WellFormed := by
  rw [← transportError_response]
  simp [Response.WellFormed, Error.response, Status.code]

theorem wellFormed_illegalCommand : Error.illegalCommand.response.WellFormed := by
  simp [Response.WellFormed, Error.response, Status.code]

/-- The func codes of R55 are 0 to 4. -/
theorem toNat_fieldFunc_le (f : Field) : (fieldFunc f).toNat ≤ 4 := by
  cases f <;> decide

theorem wellFormed_converterResponse (f : Field) (v : Int) : (converterResponse f v).WellFormed := by
  cases h : encodeQuantity f v with
  | some raw => rw [converterResponse_some h]; exact wellFormed_okResponse _
  | none => rw [converterResponse_none h]; exact wellFormed_invalidArgument _ (toNat_fieldFunc_le f)

/-- What the ports have shown, and one thing more. -/
theorem forall_mem_append_one {α : Type} {p : α → Prop} {l : List α} {a : α} (hl : ∀ x ∈ l, p x) (ha : p a) :
    ∀ x ∈ l ++ [a], p x :=
  List.forall_mem_append.2 ⟨hl, List.forall_mem_singleton.2 ha⟩

/-! ### IDLE -/

/-- A word answered in IDLE: a well-formed response more, and FUNC and VAL as the command latched them. -/
theorem MachineInv.answered {s t : State} {r : Response} (h : MachineInv s) (hp : s.phase = .idle) (hr : r.WellFormed)
    (hfunc : t.func.toNat ≤ 4) (hval : fitsVal t.val = true)
    (ht : t = { s with
      commands := t.commands, reg := t.reg, bits := t.bits, func := t.func, val := t.val
      responses := s.responses ++ [r] }) : MachineInv t := by
  rw [ht]
  exact { h with
    latches := fun hn => absurd hp hn, func := hfunc, val := hval, responses := forall_mem_append_one h.responses hr }

theorem fitsVal_of_wf_converter {f : Field} {v : Int} (h : (converter f v).wf = true) : fitsVal v = true := by
  cases f <;> exact h

/-- Acceptance sets ME and the effective MASK as the command's form says (R64). -/
theorem latchesFit_of_update {i : Instr} {op : UpdateOp} {reg bits mask : Byte}
    (hi : updateOf i = some (op, reg, bits, mask)) (s : State) :
    LatchesFit { acceptUpdate op reg bits mask s with me := meAfter op s.me } := by
  cases i with
  | setbits a b m => cases hi; exact rfl
  | setbitsD a b => cases hi; exact ⟨rfl, rfl⟩
  | clrbits a b => cases hi; exact rfl
  | _ => cases hi

/-- A well-formed command run in IDLE. -/
theorem MachineInv.exec_idle {s t : State} {i : Instr} (h : MachineInv s) (hp : s.phase = .idle) (hi : i.wf = true)
    (ht : exec i s = .next t) : MachineInv t := by
  rcases hu : updateOf i with _ | ⟨op, reg, bits, mask⟩
  · by_cases hn : ∃ reg, i = .name reg
    · obtain ⟨reg, rfl⟩ := hn
      cases (exec_name reg s).symm.trans ht
      exact h.answered hp (wellFormed_nameResponse (regmap reg)) h.func h.val rfl
    · rcases eq_converter_or_decoder hu (not_exists.1 hn) with ⟨f, v, rfl⟩ | ⟨f, b, rfl⟩
      · cases (exec_converter f v s).symm.trans ht
        rw [convert_eq_respond f v hp]
        exact h.answered hp (wellFormed_converterResponse f v) (toNat_fieldFunc_le f) (fitsVal_of_wf_converter hi) rfl
      · cases (exec_decoder f b s).symm.trans ht
        exact h.answered hp (wellFormed_okResponse _) (toNat_fieldFunc_le f) h.val rfl
  · cases (exec_update hp hu).symm.trans ht
    exact { h with
      idleQuiet := nofun
      latches := fun _ => latchesFit_of_update hu s }

theorem MachineInv.blockStep_idle {s t : State} (h : MachineInv s) (hp : s.phase = .idle) (ht : blockStep s = .next t) :
    MachineInv t := by
  rcases hc : s.commands with _ | ⟨w, ws⟩
  · cases (blockStep_waits hp hc).symm.trans ht
    exact h
  rcases hd : decode w with x | i
  · cases (blockStep_illegal hp hc hd).symm.trans ht
    rw [illegalWord, raise_of_idle (s := { s with commands := ws }) _ hp]
    exact h.answered hp wellFormed_illegalCommand h.func h.val rfl
  · have htaken : MachineInv { s with commands := ws } := { h with latches := fun hn => absurd hp hn }
    exact htaken.exec_idle hp (wf_of_decode hd) ((blockStep_accepts hp hc hd).symm.trans ht)

/-! ### READ and WRITE -/

/-- No step of a command in progress writes the latches its acceptance set. -/
theorem LatchesFit.congr {s t : State} (h : LatchesFit s) (hop : t.op = s.op) (hme : t.me = s.me)
    (hmask : t.mask = s.mask) (hbits : t.bits = s.bits) : LatchesFit t := by
  unfold LatchesFit at h ⊢
  rwa [hop, hme, hmask, hbits]

theorem MachineInv.blockStep_read {s t : State} (h : MachineInv s) (hp : s.phase = .read) (ht : blockStep s = .next t) :
    MachineInv t := by
  have hlatches : LatchesFit s := h.latches (by simp [hp])
  rcases blockStep_read_next hp ht with ⟨-, rfl⟩ | ⟨b, fx, rest, -, rfl⟩ | ⟨e, fx, rest, -, rfl⟩
  · exact { h with
      idleQuiet := fun hidle => nomatch hp.symm.trans hidle
      latches := fun _ => hlatches.congr rfl rfl rfl rfl }
  · exact { h with
      memory := Memory.wf_writes h.memory fx
      idleQuiet := nofun
      latches := fun _ => hlatches.congr rfl rfl rfl rfl
      trace := forall_mem_append_one h.trace rfl }
  · exact { h with
      memory := Memory.wf_writes h.memory fx
      idleQuiet := fun _ => rfl
      latches := fun hn => absurd rfl hn
      responses := forall_mem_append_one h.responses (wellFormed_transportError e)
      trace := forall_mem_append_one h.trace rfl }

theorem MachineInv.blockStep_write {s t : State} (h : MachineInv s) (hp : s.phase = .write) (ht : blockStep s = .next t) :
    MachineInv t := by
  have hlatches : LatchesFit s := h.latches (by simp [hp])
  rcases blockStep_write_next hp ht with ⟨-, rfl⟩ | ⟨took, fx, rest, -, rfl⟩ | ⟨e, took, rest, -, rfl⟩
  · exact { h with
      idleQuiet := fun hidle => nomatch hp.symm.trans hidle
      latches := fun _ => hlatches.congr rfl rfl rfl rfl }
  · exact { h with
      memory := Memory.wf_writes (Memory.wf_takes h.memory took _ _) fx
      idleQuiet := fun _ => rfl
      latches := fun hn => absurd rfl hn
      responses := forall_mem_append_one h.responses (by rw [← ok_response]; exact wellFormed_okResponse _)
      trace := forall_mem_append_one h.trace rfl }
  · exact { h with
      memory := Memory.wf_takes h.memory took _ _
      idleQuiet := fun _ => rfl
      latches := fun hn => absurd rfl hn
      responses := forall_mem_append_one h.responses (wellFormed_transportError e)
      trace := forall_mem_append_one h.trace rfl }

/-! ### Every step -/

theorem MachineInv.resetBlock {s : State} (h : MachineInv s) (took : Bool) : MachineInv (resetBlock took s) := by
  rcases resetBlock_cases took s with ⟨-, hr⟩ | ⟨-, -, hr⟩ | ⟨-, -, hr⟩
  · rw [hr]
    exact { h with idleQuiet := fun _ => rfl, latches := fun hn => absurd rfl hn }
  · rw [hr]
    exact { h with
      idleQuiet := fun _ => rfl
      latches := fun hn => absurd rfl hn
      trace := forall_mem_append_one h.trace rfl }
  · rw [hr]
    exact { h with
      memory := Memory.wf_takes h.memory took _ _
      idleQuiet := fun _ => rfl
      latches := fun hn => absurd rfl hn
      trace := forall_mem_append_one h.trace rfl }

/-- Settles O45: whose turn it is, then the phase, then what the port of that phase shows. -/
theorem stepKeepsTheInvariant : Obligations.StepKeepsTheInvariant := by
  intro s t h ht
  have hturn : MachineInv (afterTurn s) := { h with latches := fun hn => (h.latches hn).congr rfl rfl rfl rfl }
  rcases step_cases s with ⟨-, hs⟩ | ⟨a, b, ts, -, hs⟩ | ⟨took, ts, -, hs⟩
  · rw [hs] at ht
    rcases phase_cases s with hp | hp | hp
    · exact hturn.blockStep_idle hp ht
    · exact hturn.blockStep_read hp ht
    · exact hturn.blockStep_write hp ht
  · cases hs.symm.trans ht
    exact { hturn with
      memory := Memory.wf_write h.memory a b
      latches := fun hn => (h.latches hn).congr rfl rfl rfl rfl }
  · cases hs.symm.trans ht
    exact hturn.resetBlock took

/-- Settles O2, field by field: no byte is known, nothing is outstanding and nothing has been shown. -/
theorem resetMeetsTheInvariant : Obligations.ResetMeetsTheInvariant where
  memory := Memory.wf_nil
  idleQuiet _ := rfl
  latches hn := absurd rfl hn
  func := by decide
  val := by decide
  responses := nofun
  trace := nofun

end Sys2Proof.Machine

/-! SUPPORT. Two blocks that differ in latches alone step alike: latches that are dead may hold anything, and the operands of
the command in progress matter only for the byte it will write (R11, R107). -/

namespace Sys2Proof.Machine

/-- The operands of a command in progress: its name, BITS and MASK. -/
abbrev Operands := UpdateOp × Byte × Byte

def State.operands (s : State) : Operands := (s.op, s.bits, s.mask)

/-- Operands that write the same byte over every byte read. -/
def SameWrites (u v : Operands) : Prop := ∀ c, writtenByte u.1 c u.2.1 u.2.2 = writtenByte v.1 c v.2.1 v.2.2

/-- Two states that differ at most in latches: a command in progress has the same address, operands related by `C`, and in
WRITE the same byte read. -/
structure Alike (C : Operands → Operands → Prop) (s t : State) : Prop where
  phase : s.phase = t.phase
  outstanding : s.outstanding = t.outstanding
  mem : s.mem = t.mem
  commands : s.commands = t.commands
  responses : s.responses = t.responses
  trace : s.trace = t.trace
  readAnswers : s.readAnswers = t.readAnswers
  writeAnswers : s.writeAnswers = t.writeAnswers
  turns : s.turns = t.turns
  command : s.phase ≠ .idle → s.reg = t.reg ∧ C s.operands t.operands
  cur : s.phase = .write → s.cur = t.cur

/-- Dead latches alone may differ when the operands in progress are equal. -/
theorem sameButDeadLatches_iff_alike (s t : State) : SameButDeadLatches s t ↔ Alike Eq s t := by
  have hcommand : (s.op = t.op ∧ s.reg = t.reg ∧ s.bits = t.bits ∧ s.mask = t.mask) ↔
      (s.reg = t.reg ∧ s.operands = t.operands) := by
    simp only [State.operands, Prod.mk.injEq]
    tauto
  exact ⟨fun h => { h with command := fun hn => hcommand.1 (h.command hn) },
    fun h => { h with command := fun hn => hcommand.2 (h.command hn) }⟩

/-! ### A reset, by what is outstanding -/

theorem resetBlock_of_quiet {took : Bool} {s : State} (h : s.outstanding = false ∨ s.phase = .idle) :
    resetBlock took s = { s with phase := .idle, outstanding := false } := by
  rcases h with h | h <;> simp [resetBlock, abandonTransaction, h]

theorem resetBlock_of_reading {took : Bool} {s : State} (ho : s.outstanding = true) (hp : s.phase = .read) :
    resetBlock took s =
      { s with phase := .idle, outstanding := false, trace := s.trace ++ [.readBytes s.reg 1 .abandoned] } := by
  simp [resetBlock, abandonTransaction, endTransaction, ho, hp]

theorem resetBlock_of_writing {took : Bool} {s : State} (ho : s.outstanding = true) (hp : s.phase = .write) :
    resetBlock took s = { s with
      phase := .idle
      outstanding := false
      trace := s.trace ++ [.writeBytes s.reg [newByte s] .abandoned]
      mem := s.mem.takes took s.reg (newByte s) } := by
  simp [resetBlock, abandonTransaction, endTransaction, ho, hp]

/-! ### Outcomes -/

theorem SameOutcome.mono {R Q : State → State → Prop} (hRQ : ∀ s t, R s t → Q s t) :
    ∀ {x y : Result}, SameOutcome R x y → SameOutcome Q x y
  | .next s, .next t, h => hRQ s t h
  | .fault _, .fault _, h => h
  | .refused _, .refused _, h => h

/-- Runs from outcomes of the same kind, when runs from related states have outcomes of the same kind. -/
theorem sameOutcome_run_succ {R Q : State → State → Prop} {n : Nat} {s t : State} (h : SameOutcome R (step s) (step t))
    (hrun : ∀ s' t', R s' t' → SameOutcome Q (run n s') (run n t')) : SameOutcome Q (run (n + 1) s) (run (n + 1) t) := by
  unfold run
  revert h
  match step s, step t with
  | .next s', .next t' => exact hrun s' t'
  | .fault _, .fault _ => exact id
  | .refused _, .refused _ => exact id
  | .next _, .fault _ => exact False.elim
  | .next _, .refused _ => exact False.elim
  | .fault _, .next _ => exact False.elim
  | .fault _, .refused _ => exact False.elim
  | .refused _, .next _ => exact False.elim
  | .refused _, .fault _ => exact False.elim

/-! ### IDLE -/

/-- A pure command answers the same response from every state in IDLE, and writes operand latches alone (R79, R85, R103). -/
theorem exec_pure_response {i : Instr} (hi : updateOf i = none) :
    ∃ r, ∀ s, s.phase = .idle → ∃ t, exec i s = .next t ∧
      t = { s with reg := t.reg, bits := t.bits, func := t.func, val := t.val, responses := s.responses ++ [r] } := by
  by_cases hn : ∃ reg, i = .name reg
  · obtain ⟨reg, rfl⟩ := hn
    exact ⟨nameResponse (regmap reg), fun s _ => ⟨_, exec_name reg s, rfl⟩⟩
  · rcases eq_converter_or_decoder hi (not_exists.1 hn) with ⟨f, v, rfl⟩ | ⟨f, b, rfl⟩
    · exact ⟨converterResponse f v, fun s hp => ⟨_, exec_converter f v s, by rw [convert_eq_respond f v hp]; rfl⟩⟩
    · exact ⟨okResponse (BitVec.ofInt 16 (decodeQuantity f b)) .none, fun s _ => ⟨_, exec_decoder f b s, rfl⟩⟩

section

variable {C : Operands → Operands → Prop} (hrefl : ∀ u, C u u) (hwrites : ∀ u v, C u v → SameWrites u v)
  {s t : State} (h : Alike C s t)

include h

/-- In IDLE every latch is dead, so the same response more leaves two states alike. -/
theorem Alike.answered (hp : s.phase = .idle) (r : Response) {s' t' : State}
    (hs : s' = { s with
      commands := s'.commands, reg := s'.reg, bits := s'.bits, func := s'.func, val := s'.val
      responses := s.responses ++ [r] })
    (ht : t' = { t with
      commands := t'.commands, reg := t'.reg, bits := t'.bits, func := t'.func, val := t'.val
      responses := t.responses ++ [r] })
    (hc : s'.commands = t'.commands) : Alike C s' t' := by
  rw [hs, ht]
  exact { h with
    commands := hc
    responses := by rw [h.responses]
    command := fun hn => absurd hp hn
    cur := fun hw => nomatch hp.symm.trans hw }

include hrefl

theorem Alike.exec_idle (hp : s.phase = .idle) (i : Instr) : SameOutcome (Alike C) (exec i s) (exec i t) := by
  have hp' : t.phase = .idle := h.phase ▸ hp
  rcases hu : updateOf i with _ | ⟨op, reg, bits, mask⟩
  · obtain ⟨r, hr⟩ := exec_pure_response hu
    obtain ⟨s', hexec, hs⟩ := hr s hp
    obtain ⟨t', hexec', ht⟩ := hr t hp'
    have hc : s'.commands = t'.commands := by rw [hs, ht]; exact h.commands
    rw [hexec, hexec']
    refine h.answered hp r ?_ ?_ hc
    · rw [hs]
    · rw [ht]
  · rw [exec_update hp hu, exec_update hp' hu]
    exact { h with
      phase := rfl
      command := fun _ => ⟨rfl, hrefl _⟩
      cur := nofun }

theorem Alike.blockStep_idle (hp : s.phase = .idle) : SameOutcome (Alike C) (blockStep s) (blockStep t) := by
  have hp' : t.phase = .idle := h.phase ▸ hp
  rcases hc : s.commands with _ | ⟨w, ws⟩
  · rw [blockStep_waits hp hc, blockStep_waits hp' (h.commands ▸ hc)]
    exact h
  have hc' : t.commands = w :: ws := h.commands ▸ hc
  rcases hd : decode w with x | i
  · rw [blockStep_illegal hp hc hd, blockStep_illegal hp' hc' hd, illegalWord, illegalWord,
      raise_of_idle (s := { s with commands := ws }) _ hp, raise_of_idle (s := { t with commands := ws }) _ hp']
    exact h.answered hp _ rfl rfl rfl
  · rw [blockStep_accepts hp hc hd, blockStep_accepts hp' hc' hd]
    exact Alike.exec_idle (s := { s with commands := ws }) (t := { t with commands := ws }) hrefl { h with commands := rfl } hp i

omit hrefl

/-! ### READ and WRITE -/

theorem Alike.blockStep_read (hp : s.phase = .read) : SameOutcome (Alike C) (blockStep s) (blockStep t) := by
  have hp' : t.phase = .read := h.phase ▸ hp
  obtain ⟨hreg, hoperands⟩ := h.command (by simp [hp])
  have hmem (fx : Effects) : s.mem.writes fx = t.mem.writes fx := by rw [h.mem]
  have htrace (r : ReadResult) : s.trace ++ [.readBytes s.reg 1 r] = t.trace ++ [.readBytes t.reg 1 r] := by
    rw [h.trace, hreg]
  rw [Machine.blockStep_read hp, Machine.blockStep_read hp']
  rcases readAnswers_cases s with hw | ⟨b, fx, rest, hb⟩ | ⟨e, fx, rest, he⟩ | ⟨bs, fx, rest, hm, hl⟩
  · rw [readTransaction_waits hw, readTransaction_waits (h.readAnswers ▸ hw)]
    exact { h with outstanding := rfl, readAnswers := by rw [h.readAnswers] }
  · rw [readTransaction_ok hb, readTransaction_ok (by rwa [h.readAnswers, h.mem, hreg] at hb)]
    exact { h with
      phase := rfl, outstanding := rfl, readAnswers := rfl, mem := hmem fx, trace := htrace (.ok b)
      command := fun _ => ⟨hreg, hoperands⟩
      cur := fun _ => rfl }
  · rw [readTransaction_err he, readTransaction_err (h.readAnswers ▸ he)]
    exact { h with
      phase := rfl, outstanding := rfl, readAnswers := rfl, mem := hmem fx, trace := htrace (.err e)
      responses := by rw [h.responses]
      command := fun hn => absurd rfl hn
      cur := nofun }
  · rw [readTransaction_malformed hm hl, readTransaction_malformed (h.readAnswers ▸ hm) hl]
    exact rfl

include hwrites

/-- The byte of a write request is the same in both. -/
theorem Alike.newByte_eq (hp : s.phase = .write) : newByte s = newByte t := by
  rw [newByte_eq_writtenByte, newByte_eq_writtenByte, h.cur hp]
  exact hwrites _ _ (h.command (by simp [hp])).2 _

theorem Alike.blockStep_write (hp : s.phase = .write) : SameOutcome (Alike C) (blockStep s) (blockStep t) := by
  have hp' : t.phase = .write := h.phase ▸ hp
  obtain ⟨hreg, hoperands⟩ := h.command (by simp [hp])
  have hnew := h.newByte_eq hwrites hp
  have hmem (took : Bool) : s.mem.takes took s.reg (newByte s) = t.mem.takes took t.reg (newByte t) := by
    rw [h.mem, hreg, hnew]
  have htrace (r : WriteResult) :
      s.trace ++ [.writeBytes s.reg [newByte s] r] = t.trace ++ [.writeBytes t.reg [newByte t] r] := by
    rw [h.trace, hreg, hnew]
  rw [Machine.blockStep_write hp, Machine.blockStep_write hp']
  rcases writeAnswers_cases s with hw | ⟨took, fx, rest, ho⟩ | ⟨e, took, rest, he⟩
  · rw [writeTransaction_waits _ hw, writeTransaction_waits _ (h.writeAnswers ▸ hw)]
    exact { h with outstanding := rfl, writeAnswers := by rw [h.writeAnswers] }
  · rw [writeTransaction_ok ho, writeTransaction_ok (h.writeAnswers ▸ ho)]
    exact { h with
      phase := rfl, outstanding := rfl, writeAnswers := rfl, mem := by rw [hmem], trace := htrace .ok
      responses := by rw [h.responses]
      command := fun hn => absurd rfl hn
      cur := nofun }
  · rw [writeTransaction_err he, writeTransaction_err (h.writeAnswers ▸ he)]
    exact { h with
      phase := rfl, outstanding := rfl, writeAnswers := rfl, mem := hmem took, trace := htrace (.err e)
      responses := by rw [h.responses]
      command := fun hn => absurd rfl hn
      cur := nofun }

/-! ### Every step -/

/-- A reset drops the same request from both. -/
theorem Alike.resetBlock (took : Bool) : Alike C (resetBlock took s) (resetBlock took t) := by
  rcases resetBlock_cases took s with ⟨hq, hr⟩ | ⟨ho, hp, hr⟩ | ⟨ho, hp, hr⟩
  · rw [hr, resetBlock_of_quiet (by rwa [h.outstanding, h.phase] at hq)]
    exact { h with
      phase := rfl, outstanding := rfl
      command := fun hn => absurd rfl hn
      cur := nofun }
  · rw [hr, resetBlock_of_reading (h.outstanding ▸ ho) (h.phase ▸ hp)]
    exact { h with
      phase := rfl, outstanding := rfl
      trace := by rw [h.trace, (h.command (by simp [hp])).1]
      command := fun hn => absurd rfl hn
      cur := nofun }
  · rw [hr, resetBlock_of_writing (h.outstanding ▸ ho) (h.phase ▸ hp)]
    exact { h with
      phase := rfl, outstanding := rfl
      mem := by rw [h.mem, (h.command (by simp [hp])).1, h.newByte_eq hwrites hp]
      trace := by rw [h.trace, (h.command (by simp [hp])).1, h.newByte_eq hwrites hp]
      command := fun hn => absurd rfl hn
      cur := nofun }

include hrefl

theorem Alike.step : SameOutcome (Alike C) (step s) (step t) := by
  have hturn : Alike C (afterTurn s) (afterTurn t) := { h with turns := by rw [afterTurn, afterTurn, h.turns] }
  rcases step_cases s with ⟨hb, hs⟩ | ⟨a, b, ts, hturns, hs⟩ | ⟨took, ts, hturns, hs⟩
  · rw [hs, step_of_blockMoves (show BlockMoves t by rwa [BlockMoves, ← h.turns])]
    rcases phase_cases s with hp | hp | hp
    · exact hturn.blockStep_idle hrefl hp
    · exact hturn.blockStep_read hp
    · exact hturn.blockStep_write hwrites hp
  · rw [step_other hturns, step_other (h.turns ▸ hturns)]
    exact { h with turns := rfl, mem := by rw [otherActor_mem, otherActor_mem, h.mem] }
  · rw [step_reset hturns, step_reset (h.turns ▸ hturns)]
    exact Alike.resetBlock (s := { s with turns := ts }) (t := { t with turns := ts }) hwrites { h with turns := rfl } took

theorem Alike.run (n : Nat) : SameOutcome (Alike C) (run n s) (run n t) := by
  induction n generalizing s t with
  | zero => exact h
  | succ n ih => exact sameOutcome_run_succ (h.step hrefl hwrites) (fun s' t' h' => ih h')

end

/-- Settles O46: of the operands of the command in progress a step uses the byte they write. -/
theorem latchesDoNotOutliveTheirCommand : Obligations.LatchesDoNotOutliveTheirCommand := by
  intro s t h
  refine SameOutcome.mono (fun s' t' => (sameButDeadLatches_iff_alike s' t').2) ?_
  exact ((sameButDeadLatches_iff_alike s t).1 h).step (fun _ => rfl) (by rintro u _ rfl c; rfl)

/-! ### The pseudo-commands -/

theorem Alike.sameOutside {C : Operands → Operands → Prop} {s t : State} (h : Alike C s t) : SameOutside s t :=
  { h with waiting := by rw [h.commands] }

section

variable {i j : Instr} {op op' : UpdateOp} {reg bits mask bits' mask' : Byte}
  (hi : updateOf i = some (op, reg, bits, mask)) (hj : updateOf j = some (op', reg, bits', mask'))
  (hsame : SameWrites (op, bits, mask) (op', bits', mask'))

include hi hj hsame

/-- Two bit-update commands at one address that write the same byte over every byte read, each the next word from one state in
IDLE: until the word is taken only the words differ, and from then on only latches do. -/
theorem sameOutside_run_of_sameWrites (n : Nat) {s : State} (hp : s.phase = .idle) (ws : List Word) :
    SameOutcome SameOutside (run n { s with commands := encode i :: ws }) (run n { s with commands := encode j :: ws }) := by
  induction n generalizing s with
  | zero => exact ⟨rfl, rfl, rfl, rfl, rfl, rfl⟩
  | succ n ih =>
    rcases step_cases s with ⟨hb, -⟩ | ⟨a, b, ts, hturns, -⟩ | ⟨took, ts, hturns, -⟩
    · refine sameOutcome_run_succ (R := Alike SameWrites) ?_
        (fun s' t' h => ((h.run (fun _ _ => rfl) (fun _ _ => id) n).mono fun _ _ => Alike.sameOutside))
      rw [step_of_blockMoves (s := { s with commands := encode i :: ws }) hb,
        step_of_blockMoves (s := { s with commands := encode j :: ws }) hb,
        blockStep_accepts_update (s := afterTurn { s with commands := encode i :: ws }) hp hi rfl,
        blockStep_accepts_update (s := afterTurn { s with commands := encode j :: ws }) hp hj rfl]
      exact ⟨rfl, rfl, rfl, rfl, rfl, rfl, rfl, rfl, rfl, fun _ => ⟨rfl, hsame⟩, nofun⟩
    · rw [run_next n (step_other (s := { s with commands := encode i :: ws }) hturns),
        run_next n (step_other (s := { s with commands := encode j :: ws }) hturns)]
      exact ih (s := otherActor a b { s with turns := ts }) hp
    · rw [run_next n (step_reset (s := { s with commands := encode i :: ws }) hturns),
        run_next n (step_reset (s := { s with commands := encode j :: ws }) hturns),
        resetBlock_of_quiet (s := { s with commands := encode i :: ws, turns := ts }) (.inr hp),
        resetBlock_of_quiet (s := { s with commands := encode j :: ws, turns := ts }) (.inr hp)]
      exact ih (s := { s with turns := ts, phase := .idle, outstanding := false }) rfl

end

/-- Settles O36: each pair of commands writes the same byte over every byte read. -/
theorem pseudoCommandsAreEqual : Obligations.PseudoCommandsAreEqual := by
  rintro reg b i j (⟨rfl, rfl⟩ | ⟨rfl, rfl⟩) s ws n hp
  · have hsame : SameWrites (.setDefault, b, b) (.set, b, b) := fun _ => rfl
    exact sameOutside_run_of_sameWrites rfl rfl hsame n hp ws
  · have hsame : SameWrites (.clear, b, b) (.set, 0#8, b) := fun _ => BitVec.or_zero.symm
    exact sameOutside_run_of_sameWrites rfl rfl hsame n hp ws

end Sys2Proof.Machine

/-! SUPPORT. Codes and quantities: the place of a code and the index of a byte undo each other, and so do the converter and the
decoder of a field (R53, R96, R97; 42_decoders.md section 3). -/

namespace Sys2Proof.Machine

/-! ### Codes -/

theorem index_lt (f : Field) (b : Byte) : index f b < 2 ^ fieldWidth f := by
  cases f <;> revert b <;> decide

theorem place_index (f : Field) (b : Byte) : place f (index f b) = b &&& fieldMask f := by
  cases f <;> revert b <;> decide

/-- A code the field has room for is read back as it was placed. -/
theorem index_place {f : Field} {c : Nat} (h : c < 2 ^ fieldWidth f) : index f (place f c) = c := by
  revert c
  cases f <;> decide

theorem place_and_not_mask (f : Field) (c : Nat) : place f c &&& ~~~(fieldMask f) = 0#8 := by
  rw [place, BitVec.and_assoc, BitVec.and_not_self]
  exact BitVec.and_zero

/-- Codes in order are placed in order. -/
theorem toNat_place_le {f : Field} {c d : Nat} (hcd : c ≤ d) (hd : d < 2 ^ fieldWidth f) :
    (place f c).toNat ≤ (place f d).toNat := by
  rw [toNat_place, toNat_place, Nat.mod_eq_of_lt hd, Nat.mod_eq_of_lt (hcd.trans_lt hd)]
  exact Nat.mul_le_mul_right _ hcd

/-! ### The linear fields -/

section

variable {f : Field} {l : Linear} (hl : linearOf f = some l)

include hl

theorem decodeQuantity_linear (b : Byte) : decodeQuantity f b = l.offset + l.step * (index f b : Int) := by
  simp [decodeQuantity, hl]

theorem step_pos : 0 < l.step := by
  cases f <;> cases hl <;> decide

/-- The quantity of every code is in the domain, and has that code (R95). -/
theorem inDomain_and_code_of_code {c : Nat} (hc : c < 2 ^ fieldWidth f) :
    l.inDomain (l.offset + l.step * (c : Int)) = true ∧ l.code (l.offset + l.step * (c : Int)) = c := by
  refine ⟨?_, ?_⟩
  · cases f with
    | chgv => cases hl
    | chgi =>
      cases hl
      simp only [fieldWidth] at hc
      rw [inDomain_closed rfl]
      dsimp only
      omega
    | _ =>
      cases hl
      simp only [fieldWidth] at hc
      rw [inDomain_half_open rfl]
      dsimp only
      omega
  · rw [Linear.code, add_sub_cancel_left, Int.mul_ediv_cancel_left _ (step_pos hl).ne', Int.toNat_natCast]

/-- A converted quantity's raw value is its code, placed (R56, R57). -/
theorem place_code_of_encodeQuantity {v : Int} {raw : Byte} (h : encodeQuantity f v = some raw) :
    raw = place f (l.code v) ∧ (l.code v : Int) = (v - l.offset) / l.step ∧ l.code v < 2 ^ fieldWidth f := by
  rw [encodeQuantity_linear hl] at h
  split at h
  · next hv =>
    cases h
    exact ⟨rfl, code_of_inDomain hl hv⟩
  · cases h

/-- The code in a converted quantity's raw value is the floor of the formula (R57). -/
theorem index_of_encodeQuantity {v : Int} {raw : Byte} (h : encodeQuantity f v = some raw) :
    (index f raw : Int) = (v - l.offset) / l.step := by
  obtain ⟨rfl, hcode, hroom⟩ := place_code_of_encodeQuantity hl h
  rw [index_place hroom, hcode]

end

/-! ### The charge target -/

theorem encodeQuantity_chgv (v : Int) : encodeQuantity .chgv v = (chgvCode v).map (place .chgv) := rfl

theorem decodeQuantity_chgv (b : Byte) : decodeQuantity .chgv b = chgvQuantity (index .chgv b) := rfl

/-- The codes of the four listed targets (R58, R92). -/
theorem chgvCode_eq_some_iff (v : Int) (c : Nat) : chgvCode v = some c ↔ c < 4 ∧ v = chgvQuantity c := by
  refine ⟨fun h => ?_, fun ⟨hc, hv⟩ => ?_⟩
  · unfold chgvCode at h
    split_ifs at h with h0 h1 h2 h3
    all_goals cases h; exact ⟨by decide, by assumption⟩
  · subst hv
    revert c
    decide

theorem place_code_of_encodeQuantity_chgv {v : Int} {raw : Byte} (h : encodeQuantity .chgv v = some raw) :
    ∃ c, c < 4 ∧ v = chgvQuantity c ∧ raw = place .chgv c := by
  rw [encodeQuantity_chgv, Option.map_eq_some_iff] at h
  obtain ⟨c, hc, rfl⟩ := h
  obtain ⟨hroom, hv⟩ := (chgvCode_eq_some_iff v c).1 hc
  exact ⟨c, hroom, hv, rfl⟩

/-- A larger target has a larger code. -/
theorem le_of_chgvQuantity_le {c d : Nat} (hc : c < 4) (hd : d < 4) (h : chgvQuantity c ≤ chgvQuantity d) : c ≤ d := by
  have hcodes : ∀ c < 4, ∀ d < 4, chgvQuantity c ≤ chgvQuantity d → c ≤ d := by decide
  exact hcodes c hc d hd h

theorem linear_or_chgv (f : Field) : (∃ l, linearOf f = some l) ∨ f = .chgv := by
  cases f with
  | chgv => exact .inr rfl
  | _ => exact .inl ⟨_, rfl⟩

/-! ### The round trips and the order -/

theorem encodeQuantity_decodeQuantity (f : Field) (b : Byte) :
    encodeQuantity f (decodeQuantity f b) = some (b &&& fieldMask f) := by
  rcases linear_or_chgv f with ⟨l, hl⟩ | rfl
  · obtain ⟨hdomain, hcode⟩ := inDomain_and_code_of_code hl (index_lt f b)
    rw [decodeQuantity_linear hl, encodeQuantity_linear hl, if_pos hdomain, hcode, place_index]
  · have hcode := (chgvCode_eq_some_iff _ _).2 ⟨index_lt .chgv b, rfl⟩
    rw [decodeQuantity_chgv, encodeQuantity_chgv, hcode, Option.map_some, place_index]

/-- Settles O22: the converter places the code the decoder reads, and the code is the floor of the formula. -/
theorem encodeAndDecodeAgree : Obligations.EncodeAndDecodeAgree := by
  refine ⟨encodeQuantity_decodeQuantity, fun f l v raw hl h => ?_, fun v raw h => ?_⟩
  · have hindex := index_of_encodeQuantity hl h
    refine ⟨?_, hindex⟩
    rw [decodeQuantity_linear hl, hindex, Int.emod_def]
    ring
  · obtain ⟨c, hroom, rfl, rfl⟩ := place_code_of_encodeQuantity_chgv h
    rw [decodeQuantity_chgv, index_place hroom]

/-- A converter's result has no bit outside its field. -/
theorem encodeQuantity_and_not_mask {f : Field} {v : Int} {raw : Byte} (h : encodeQuantity f v = some raw) :
    raw &&& ~~~(fieldMask f) = 0#8 := by
  rcases linear_or_chgv f with ⟨l, hl⟩ | rfl
  · obtain ⟨rfl, -⟩ := place_code_of_encodeQuantity hl h
    exact place_and_not_mask f _
  · obtain ⟨c, -, -, rfl⟩ := place_code_of_encodeQuantity_chgv h
    exact place_and_not_mask .chgv c

/-- Settles O23: a result is a placed code, and the code never falls as the quantity rises. -/
theorem converterResultsStayInFieldAndOrder : Obligations.ConverterResultsStayInFieldAndOrder := by
  refine ⟨fun f v raw => encodeQuantity_and_not_mask, fun f v v' raw raw' h h' hv => ?_⟩
  rcases linear_or_chgv f with ⟨l, hl⟩ | rfl
  · obtain ⟨rfl, hcode, -⟩ := place_code_of_encodeQuantity hl h
    obtain ⟨rfl, hcode', hroom'⟩ := place_code_of_encodeQuantity hl h'
    have hdiv : (v - l.offset) / l.step ≤ (v' - l.offset) / l.step :=
      Int.ediv_le_ediv (step_pos hl) (Int.sub_le_sub_right hv _)
    exact toNat_place_le (by omega) hroom'
  · obtain ⟨c, hroom, rfl, rfl⟩ := place_code_of_encodeQuantity_chgv h
    obtain ⟨c', hroom', rfl, rfl⟩ := place_code_of_encodeQuantity_chgv h'
    exact toNat_place_le (le_of_chgvQuantity_le hroom hroom' hv) hroom'

/-! ### The written byte, bit by bit, and a field set in it -/

/-- Settles O34, bit by bit of the two formulas. -/
theorem writtenBitByBit : Obligations.WrittenBitByBit := by
  refine ⟨fun cur mask bits i => ?_, fun cur bits => ?_, fun cur bits => BitVec.or_zero.symm⟩
  · by_cases hi : i < 8
    · simp [setByte, hi, Bool.or_comm, Bool.and_comm]
    · simp [BitVec.getLsbD_of_ge _ i (not_lt.1 hi)]
  · ext i hi
    simp only [setByte, BitVec.getElem_or, BitVec.getElem_and, BitVec.getElem_not]
    cases bits[i] <;> simp

/-- A decoder looks at its field's bits alone (R96, R97). -/
theorem decodeQuantity_congr {f : Field} {b c : Byte} (h : b &&& fieldMask f = c &&& fieldMask f) :
    decodeQuantity f b = decodeQuantity f c := by
  simp only [decodeQuantity, index, h]

/-- Outside the mask the byte SETBITS writes is the byte read, where no bit given is outside the mask. -/
theorem setByte_and_not_mask {cur mask bits : Byte} (h : bits &&& ~~~mask = 0#8) :
    setByte cur mask bits &&& ~~~mask = cur &&& ~~~mask := by
  rw [setByte, BitVec.and_or_distrib_right, BitVec.and_assoc, BitVec.and_self, h, BitVec.or_zero]

/-- Under the mask it is the bits given. -/
theorem setByte_and_mask (cur mask bits : Byte) : setByte cur mask bits &&& mask = bits &&& mask := by
  ext i hi
  simp only [setByte, BitVec.getElem_and, BitVec.getElem_or, BitVec.getElem_not]
  cases mask[i] <;> simp

/-- Settles O35: SETBITS under a field's mask sets the field and keeps the rest, and the two LDO fields are each other's rest. -/
theorem setFieldSetsOnlyItsField : Obligations.SetFieldSetsOnlyItsField := by
  have hrest {f : Field} {v : Int} {raw : Byte} (cur : Byte) (h : encodeQuantity f v = some raw) :=
    setByte_and_not_mask (cur := cur) (encodeQuantity_and_not_mask h)
  have hldo2 : fieldMask .ldo2 = ~~~(fieldMask .ldo3) := by decide
  have hldo3 : fieldMask .ldo3 = ~~~(fieldMask .ldo2) := by decide
  refine ⟨fun f v raw cur h => ⟨decodeQuantity_congr (setByte_and_mask _ _ _), hrest cur h⟩,
    fun v raw cur h => decodeQuantity_congr ?_, fun v raw cur h => decodeQuantity_congr ?_⟩
  · rw [hldo2]; exact hrest cur h
  · rw [hldo3]; exact hrest cur h

/-! ### The five decoders -/

theorem encode_decoder (f : Field) (b : Byte) : encode (decoder f b) = formatD 0x3#4 (fieldFunc f) b := by
  cases f <;> rfl

/-- The response of a quantity of 16 bits is the quantity, zero above it (R67). -/
theorem okResponse_ofNat {n : Nat} (h : n < 2 ^ 16) : okResponse (BitVec.ofInt 16 n) .none = ⟨BitVec.ofNat 32 n, .none⟩ := by
  have hfixed : fieldAt Status.ok.code 30 ||| fieldAt 0#4 26 = 0#32 := by decide
  rw [okResponse, responseWord, hfixed, BitVec.zero_or, fieldAt_zero, BitVec.ofInt_natCast,
    BitVec.setWidth_ofNat_of_le_of_lt (by decide) h]

/-- A decoder as R98 to R103 say it, from the quantity its field's code stands for. -/
theorem decodes_of_decodeQuantity (f : Field) {op : Word} {quantity : Byte → Nat}
    (hop : fieldAt 0x3#4 28 ||| fieldAt (fieldFunc f) 24 = op)
    (hquantity : ∀ b, quantity b < 2 ^ 16 ∧ decodeQuantity f b = quantity b) :
    Decodes (decoder f) op (fieldFunc f) quantity := by
  intro b s _
  obtain ⟨hlt, heq⟩ := hquantity b
  refine ⟨by rw [encode_decoder, formatD, hop, fieldAt_zero], ?_⟩
  rw [exec_decoder, ← okResponse_ofNat hlt, ← heq]
  rfl

/-- The decoder of a linear field by its row of the constant table (R95, R96). -/
theorem decodes_of_linear (f : Field) {op : Word} {quantity : Byte → Nat} {l : Linear} {offset step : Nat}
    (hop : fieldAt 0x3#4 28 ||| fieldAt (fieldFunc f) 24 = op) (hl : linearOf f = some l)
    (hoffset : l.offset = offset) (hstep : l.step = step) (hquantity : ∀ b, quantity b = offset + step * index f b)
    (hlimit : offset + step * 2 ^ fieldWidth f ≤ 2 ^ 16) :
    Decodes (decoder f) op (fieldFunc f) quantity := by
  refine decodes_of_decodeQuantity f hop (fun b => ⟨?_, ?_⟩)
  · have hroom := Nat.mul_le_mul_left step (index_lt f b)
    rw [Nat.mul_succ] at hroom
    have hpos := step_pos hl
    rw [hquantity]
    omega
  · rw [decodeQuantity_linear hl, hquantity, hoffset, hstep]
    push_cast
    rfl

/-- Settles O15, by the table's row for the DC-DC voltage. -/
theorem decDcdcDecodes : Obligations.DecDcdcDecodes :=
  decodes_of_linear .dcdc (by decide) rfl rfl rfl (fun _ => rfl) (by decide)

/-- Settles O16, by the table's row for LDO3. -/
theorem decLdo3Decodes : Obligations.DecLdo3Decodes :=
  decodes_of_linear .ldo3 (by decide) rfl rfl rfl (fun _ => rfl) (by decide)

/-- Settles O17, by the table's row for LDO2, whose field is at bits 7:4. -/
theorem decLdo2Decodes : Obligations.DecLdo2Decodes :=
  decodes_of_linear .ldo2 (by decide) rfl rfl rfl (fun _ => rfl) (by decide)

/-- Settles O19, by the table's row for the charge current. -/
theorem decChgiDecodes : Obligations.DecChgiDecodes :=
  decodes_of_linear .chgi (by decide) rfl rfl rfl (fun _ => rfl) (by decide)

/-- Settles O18, by the code at bits 6:5. -/
theorem decChgvDecodes : Obligations.DecChgvDecodes := by
  refine decodes_of_decodeQuantity .chgv (by decide) (fun b => ?_)
  rw [decodeQuantity_chgv]
  revert b
  decide

end Sys2Proof.Machine

/-! SUPPORT. What a step can stop on, what it shows at the ports, and what it leaves of the remote registers (R33, R34, R44,
R47, R135). -/

namespace Sys2Proof.Machine

/-! ### The commands as steps run them -/

/-- In READ and WRITE a step runs the accepted command again (R13, R107). -/
theorem blockStep_inFlight {s : State} (hp : s.phase ≠ .idle) : blockStep s = exec (inFlight s) s := by
  rcases phase_cases s with h | h | h
  · exact absurd h hp
  · simp only [blockStep, h]
  · simp only [blockStep, h]

/-- Settles O3, in IDLE by the word presented, in READ and WRITE by the accepted command. -/
theorem stepRunsDecodedCommand : Obligations.StepRunsDecodedCommand := by
  refine fun s hb => ⟨fun w ws i hp hc hd => step_takes_decoded hb hp hc hd, fun hp hc => ?_, fun hp => ?_⟩
  · exact (step_of_blockMoves hb).trans (blockStep_waits (s := afterTurn s) hp hc)
  · have hstep : step s = exec (inFlight (afterTurn s)) (afterTurn s) :=
      (step_of_blockMoves hb).trans (blockStep_inFlight hp)
    have hop : (afterTurn s).op = s.op := rfl
    refine ⟨fun h => ?_, fun h => ?_, fun h => ?_⟩
    all_goals
      rw [hstep, inFlight, hop, h]
      rfl

/-- Settles O29: accepted, the read, the write. -/
theorem updateMakesOneReadAndOneWrite : Obligations.UpdateMakesOneReadAndOneWrite := by
  intro i op reg bits mask s ws a c fx rs took fx' was hu ht hp hc hr ha hw
  have haccept := step_accepts ht hp (wf_of_updateOf hu) hu hc
  have hread := (step_no_turn (s := accepted op reg bits mask ws s) ht).trans
    (blockStep_read_ok rfl (readsOk_of_answer hr ha))
  have hrun := (run_next 2 haccept).trans ((run_next 1 hread).trans (run_next 0 (step_write_ok ht rfl hw)))
  refine hrun.trans ?_
  simp [run, accepted, acceptUpdate]

/-- Settles O42, by the phase the request was out in. -/
theorem resetShowsTheAbandonedRequest : Obligations.ResetShowsTheAbandonedRequest := by
  refine fun s took ts hturns ho => ⟨_, step_reset hturns, fun hp => ?_, fun hp => ?_⟩
  · rw [resetBlock_of_reading (s := { s with turns := ts }) ho hp]
  · rw [resetBlock_of_writing (s := { s with turns := ts }) ho hp, newByte_eq_writtenByte]

/-! ### When a step stops -/

/-- The read is answered by a number of bytes other than one (R34). -/
def MalformedReply (s : State) : Prop := ∃ bs fx rest, s.readAnswers = .bytes bs fx :: rest ∧ bs.length ≠ 1

theorem blockStep_malformed {s : State} (hp : s.phase = .read) (h : MalformedReply s) : blockStep s = .fault .readLength := by
  obtain ⟨bs, fx, rest, hr, hl⟩ := h
  rw [blockStep_read hp, readTransaction_malformed hr hl]

theorem exec_idle_next (i : Instr) {s : State} (hp : s.phase = .idle) : ∃ t, exec i s = .next t := by
  rcases hu : updateOf i with _ | ⟨op, reg, bits, mask⟩
  · obtain ⟨t, -, h, -⟩ := exec_pure hp hu
    exact ⟨t, h⟩
  · exact ⟨_, exec_update hp hu⟩

/-- Whatever the block finds, but for a malformed reply, it answers a next state. -/
theorem blockStep_next {s : State} (h : ¬ (s.phase = .read ∧ MalformedReply s)) : ∃ t, blockStep s = .next t := by
  rcases blockStep_cases s with ⟨-, -, hs⟩ | ⟨w, ws, i, hp, -, -, hs⟩ | ⟨w, ws, x, -, -, -, hs⟩ | ⟨hp, hs⟩ | ⟨-, hs⟩
  · exact ⟨_, hs⟩
  · rw [hs]; exact exec_idle_next i hp
  · exact ⟨_, hs⟩
  · rw [hs]
    rcases readAnswers_cases s with hw | ⟨b, fx, rest, hb⟩ | ⟨e, fx, rest, he⟩ | hm
    · exact ⟨_, readTransaction_waits hw⟩
    · exact ⟨_, readTransaction_ok hb⟩
    · exact ⟨_, readTransaction_err he⟩
    · exact absurd ⟨hp, hm⟩ h
  · rw [hs]
    rcases writeAnswers_cases s with hw | ⟨took, fx, rest, ho⟩ | ⟨e, took, rest, he⟩
    · exact ⟨_, writeTransaction_waits _ hw⟩
    · exact ⟨_, writeTransaction_ok ho⟩
    · exact ⟨_, writeTransaction_err he⟩

/-- Settles O50: another actor and a reset never stop, and the block stops on a malformed reply alone. -/
theorem stopsOnlyOnMalformedReply : Obligations.StopsOnlyOnMalformedReply := by
  intro s
  have hfault (h : BlockMoves s ∧ s.phase = .read ∧ MalformedReply s) : step s = .fault .readLength :=
    (step_of_blockMoves h.1).trans (blockStep_malformed (s := afterTurn s) h.2.1 h.2.2)
  refine ⟨⟨fun ⟨t, ht⟩ h => (nomatch ht.symm.trans (hfault h)), fun h => ?_⟩, hfault⟩
  rcases step_cases s with ⟨hb, hs⟩ | ⟨a, b, ts, -, hs⟩ | ⟨took, ts, -, hs⟩
  · rw [hs]; exact blockStep_next (s := afterTurn s) (fun hm => h ⟨hb, hm⟩)
  · exact ⟨_, hs⟩
  · exact ⟨_, hs⟩

/-! ### What a step shows at the ports -/

/-- From `s` to `t` the ports show at most one transaction, of one byte and not in IDLE, and at most one response; and a command
that has ended has nothing outstanding. -/
def ShowsAtMostOne (s t : State) : Prop :=
  (∃ xs, t.trace = s.trace ++ xs ∧ xs.length ≤ 1 ∧ (s.phase = .idle → xs = []) ∧ ∀ x ∈ xs, x.OneByte) ∧
  (∃ rs, t.responses = s.responses ++ rs ∧ rs.length ≤ 1) ∧
  (t.phase = .idle → s.phase ≠ .idle → t.outstanding = false)

theorem responds_at_most_once {s t : State} (h : t.responses = s.responses ∨ ∃ r, t.responses = s.responses ++ [r]) :
    ∃ rs, t.responses = s.responses ++ rs ∧ rs.length ≤ 1 := by
  rcases h with h | ⟨r, h⟩
  · exact ⟨[], by rw [h, List.append_nil], by decide⟩
  · exact ⟨[r], h, le_rfl⟩

/-- A step without a transaction, and with a response or none. -/
theorem showsAtMostOne_of_no_transaction {s t : State} (htrace : t.trace = s.trace)
    (hresponses : t.responses = s.responses ∨ ∃ r, t.responses = s.responses ++ [r])
    (hended : t.phase = .idle → s.phase ≠ .idle → t.outstanding = false) : ShowsAtMostOne s t :=
  ⟨⟨[], by rw [htrace, List.append_nil], by decide, fun _ => rfl, nofun⟩, responds_at_most_once hresponses, hended⟩

/-- A step that ends a transaction, and with a response or none. -/
theorem showsAtMostOne_of_transaction {s t : State} {x : Transaction} (hp : s.phase ≠ .idle)
    (htrace : t.trace = s.trace ++ [x]) (hbyte : x.OneByte)
    (hresponses : t.responses = s.responses ∨ ∃ r, t.responses = s.responses ++ [r])
    (hquiet : t.outstanding = false) : ShowsAtMostOne s t :=
  ⟨⟨[x], htrace, le_rfl, fun h => absurd h hp, List.forall_mem_singleton.2 hbyte⟩, responds_at_most_once hresponses,
    fun _ _ => hquiet⟩

theorem blockStep_showsAtMostOne {s t : State} (h : blockStep s = .next t) : ShowsAtMostOne s t := by
  rcases phase_cases s with hp | hp | hp
  · rcases blockStep_idle_next hp h with ⟨-, rfl⟩ | ⟨w, ws, r, -, -, ht⟩ | ⟨w, ws, i, op, reg, bits, mask, -, -, -, rfl⟩
    · exact showsAtMostOne_of_no_transaction rfl (.inl rfl) (fun _ hn => absurd hp hn)
    · exact showsAtMostOne_of_no_transaction (by rw [ht]) (.inr ⟨r, by rw [ht]⟩) (fun _ hn => absurd hp hn)
    · exact showsAtMostOne_of_no_transaction rfl (.inl rfl) (fun _ hn => absurd hp hn)
  · have hn : s.phase ≠ .idle := by simp [hp]
    rcases blockStep_read_next hp h with ⟨-, rfl⟩ | ⟨b, fx, rest, -, rfl⟩ | ⟨e, fx, rest, -, rfl⟩
    · exact showsAtMostOne_of_no_transaction rfl (.inl rfl) (fun hidle => absurd hidle hn)
    · exact showsAtMostOne_of_transaction hn rfl rfl (.inl rfl) rfl
    · exact showsAtMostOne_of_transaction hn rfl rfl (.inr ⟨_, rfl⟩) rfl
  · have hn : s.phase ≠ .idle := by simp [hp]
    rcases blockStep_write_next hp h with ⟨-, rfl⟩ | ⟨took, fx, rest, -, rfl⟩ | ⟨e, took, rest, -, rfl⟩
    · exact showsAtMostOne_of_no_transaction rfl (.inl rfl) (fun hidle => absurd hidle hn)
    · exact showsAtMostOne_of_transaction hn rfl rfl (.inr ⟨_, rfl⟩) rfl
    · exact showsAtMostOne_of_transaction hn rfl rfl (.inr ⟨_, rfl⟩) rfl

theorem resetBlock_showsAtMostOne (took : Bool) (s : State) : ShowsAtMostOne s (resetBlock took s) := by
  rcases resetBlock_cases took s with ⟨-, h⟩ | ⟨-, hp, h⟩ | ⟨-, hp, h⟩
  · rw [h]; exact showsAtMostOne_of_no_transaction rfl (.inl rfl) (fun _ _ => rfl)
  · rw [h]; exact showsAtMostOne_of_transaction (by simp [hp]) rfl rfl (.inl rfl) rfl
  · rw [h]; exact showsAtMostOne_of_transaction (by simp [hp]) rfl rfl (.inl rfl) rfl

/-- Settles O48: whose turn it is, then the phase, then what the port of that phase shows. -/
theorem oneTransactionAtATime : Obligations.OneTransactionAtATime := by
  intro s t h
  rcases step_cases s with ⟨-, hs⟩ | ⟨a, b, ts, -, hs⟩ | ⟨took, ts, -, hs⟩
  · exact blockStep_showsAtMostOne (s := afterTurn s) (hs.symm.trans h)
  · cases hs.symm.trans h
    exact showsAtMostOne_of_no_transaction rfl (.inl rfl) (fun hidle hn => absurd hidle hn)
  · cases hs.symm.trans h
    exact resetBlock_showsAtMostOne took (afterTurn s)

/-! ### One response for each word -/

/-- A block's step settles what it owes, word by word (R135). -/
theorem account_blockStep {s t : State} (h : blockStep s = .next t) : account t = account s := by
  rcases phase_cases s with hp | hp | hp
  · rcases blockStep_idle_next hp h with ⟨-, rfl⟩ | ⟨w, ws, r, hc, -, ht⟩ | ⟨w, ws, i, op, reg, bits, mask, hc, -, -, rfl⟩
    · rfl
    · rw [ht]; simp [account, hp, hc]; omega
    · simp [account, hp, hc]
  · rcases blockStep_read_next hp h with ⟨-, rfl⟩ | ⟨b, fx, rest, -, rfl⟩ | ⟨e, fx, rest, -, rfl⟩
    · rfl
    · simp [account, hp]
    · simp [account, hp]; omega
  · rcases blockStep_write_next hp h with ⟨-, rfl⟩ | ⟨took, fx, rest, -, rfl⟩ | ⟨e, took, rest, -, rfl⟩
    · rfl
    · simp [account, hp]; omega
    · simp [account, hp]; omega

theorem account_step {s t : State} (h : step s = .next t) (hr : ∀ took ts, s.turns ≠ .reset took :: ts) :
    account t = account s := by
  rcases step_cases s with ⟨-, hs⟩ | ⟨a, b, ts, -, hs⟩ | ⟨took, ts, hturns, -⟩
  · exact account_blockStep (s := afterTurn s) (hs.symm.trans h)
  · cases hs.symm.trans h; rfl
  · exact absurd hturns (hr took ts)

/-- A reset loses the response of the command it abandons. -/
theorem account_resetBlock (took : Bool) (s : State) :
    account (resetBlock took s) + (if s.phase = .idle then 0 else 1) = account s := by
  simp [account]; omega

/-- A block's step takes no turn. -/
theorem blockStep_turns {s t : State} (h : blockStep s = .next t) : t.turns = s.turns := by
  rcases phase_cases s with hp | hp | hp
  · rcases blockStep_idle_next hp h with ⟨-, rfl⟩ | ⟨w, ws, r, -, -, ht⟩ | ⟨w, ws, i, op, reg, bits, mask, -, -, -, rfl⟩
    · rfl
    · rw [ht]
    · rfl
  · rcases blockStep_read_next hp h with ⟨-, rfl⟩ | ⟨b, fx, rest, -, rfl⟩ | ⟨e, fx, rest, -, rfl⟩
    all_goals rfl
  · rcases blockStep_write_next hp h with ⟨-, rfl⟩ | ⟨took, fx, rest, -, rfl⟩ | ⟨e, took, rest, -, rfl⟩
    all_goals rfl

/-- A step takes one turn, where any is listed. -/
theorem step_turns {s t : State} (h : step s = .next t) : t.turns = s.turns.tail := by
  rcases step_cases s with ⟨-, hs⟩ | ⟨a, b, ts, -, hs⟩ | ⟨took, ts, -, hs⟩
  · exact blockStep_turns (s := afterTurn s) (hs.symm.trans h)
  · cases hs.symm.trans h; rfl
  · cases hs.symm.trans h; exact resetBlock_turns took (afterTurn s)

theorem account_run {n : Nat} {s t : State} (h : run n s = .next t) (hr : ∀ took, Turn.reset took ∉ s.turns) :
    account t = account s := by
  induction n generalizing s with
  | zero => cases h; rfl
  | succ n ih =>
    obtain ⟨u, hstep, hrun⟩ := step_of_run_succ h
    have hfirst := account_step hstep (fun took ts hturns => hr took (by simp [hturns]))
    have hrest := ih hrun (fun took hmem => hr took (List.mem_of_mem_tail (step_turns hstep ▸ hmem)))
    exact hrest.trans hfirst

/-- Settles O47: by the step, and for a run by induction over its steps. -/
theorem everyWordOwesOneResponse : Obligations.EveryWordOwesOneResponse := by
  refine ⟨fun s t => account_step, fun s t took ts h hturns => ?_, fun n s t h hr hp ⟨hc, hidle, _⟩ => ?_⟩
  · cases (step_reset hturns).symm.trans h
    exact account_resetBlock took { s with turns := ts }
  · have haccount := account_run h hr
    simp only [account, hp, hidle, hc, if_true, List.length_nil] at haccount
    omega

end Sys2Proof.Machine

/-! SUPPORT. What a transaction leaves of the remote registers: what its answer says, and of a write that is taken its byte at
REG (R42, R44); and what several blocks on one device share (R145). -/

namespace Sys2Proof.Machine

/-! ### The transactions -/

theorem readTransaction_mem {s t : State} (h : readTransaction s = .next t) :
    t.mem = s.mem ∨ ∃ r rest, s.readAnswers = r :: rest ∧ t.mem = s.mem.writes r.effects := by
  rcases readAnswers_cases s with hw | ⟨b, fx, rest, hb⟩ | ⟨e, fx, rest, he⟩ | ⟨bs, fx, rest, hm, hl⟩
  · cases (readTransaction_waits hw).symm.trans h
    exact .inl rfl
  · cases (readTransaction_ok hb).symm.trans h
    rcases hb with hb | ⟨hb, -⟩
    · exact .inr ⟨_, rest, hb, rfl⟩
    · exact .inr ⟨_, rest, hb, rfl⟩
  · cases (readTransaction_err he).symm.trans h
    exact .inr ⟨_, rest, he, rfl⟩
  · cases (readTransaction_malformed hm hl).symm.trans h

theorem writeTransaction_mem {s t : State} {n : Byte} (h : writeTransaction n s = .next t) :
    t.mem = s.mem ∨ ∃ w rest took, s.writeAnswers = w :: rest ∧ t.mem = (s.mem.takes took s.reg n).writes w.effects := by
  rcases writeAnswers_cases s with hw | ⟨took, fx, rest, ho⟩ | ⟨e, took, rest, he⟩
  · cases (writeTransaction_waits n hw).symm.trans h
    exact .inl rfl
  · cases (writeTransaction_ok ho).symm.trans h
    exact .inr ⟨_, rest, took, ho, rfl⟩
  · cases (writeTransaction_err he).symm.trans h
    exact .inr ⟨_, rest, took, he, rfl⟩

/-- A read leaves every address alone that its answer does not name. -/
theorem read_mem_readTransaction {s t : State} {a : Byte} (h : readTransaction s = .next t)
    (ha : ∀ r rest, s.readAnswers = r :: rest → ∀ p ∈ r.effects, p.1 ≠ a) : t.mem.read a = s.mem.read a := by
  rcases readTransaction_mem h with hm | ⟨r, rest, hr, hm⟩
  · rw [hm]
  · rw [hm, Memory.read_writes_other _ (ha r rest hr)]

/-- A write leaves every address alone but REG and those its answer names. -/
theorem read_mem_writeTransaction {s t : State} {n a : Byte} (h : writeTransaction n s = .next t)
    (ha : ∀ w rest, s.writeAnswers = w :: rest → ∀ p ∈ w.effects, p.1 ≠ a) (hreg : a ≠ s.reg) :
    t.mem.read a = s.mem.read a := by
  rcases writeTransaction_mem h with hm | ⟨w, rest, took, hw, hm⟩
  · rw [hm]
  · rw [hm, Memory.read_writes_other _ (ha w rest hw), Memory.read_takes_other _ took n hreg]

/-! ### The frame of exec -/

/-- A pure command touches no remote register, whatever PHASE is. -/
theorem exec_pure_frame {i : Instr} {s t : State} (hi : updateOf i = none) (h : exec i s = .next t) :
    t.mem = s.mem ∧ t.turns = s.turns ∧ t.commands = s.commands := by
  by_cases hn : ∃ reg, i = .name reg
  · obtain ⟨reg, rfl⟩ := hn
    cases (exec_name reg s).symm.trans h
    exact ⟨rfl, rfl, rfl⟩
  rcases eq_converter_or_decoder hi (not_exists.1 hn) with ⟨f, v, rfl⟩ | ⟨f, b, rfl⟩
  · cases (exec_converter f v s).symm.trans h
    rcases convert_cases f v s with ⟨raw, -, hc⟩ | ⟨-, hc⟩
    · rw [hc]; exact ⟨rfl, rfl, rfl⟩
    · rw [hc]; exact ⟨rfl, rfl, rfl⟩
  · cases (exec_decoder f b s).symm.trans h
    exact ⟨rfl, rfl, rfl⟩

theorem readTransaction_frame {s t : State} (h : readTransaction s = .next t) :
    t.turns = s.turns ∧ t.commands = s.commands := by
  rcases readAnswers_cases s with hw | ⟨b, fx, rest, hb⟩ | ⟨e, fx, rest, he⟩ | ⟨bs, fx, rest, hm, hl⟩
  · cases (readTransaction_waits hw).symm.trans h; exact ⟨rfl, rfl⟩
  · cases (readTransaction_ok hb).symm.trans h; exact ⟨rfl, rfl⟩
  · cases (readTransaction_err he).symm.trans h; exact ⟨rfl, rfl⟩
  · cases (readTransaction_malformed hm hl).symm.trans h

theorem writeTransaction_frame {s t : State} {n : Byte} (h : writeTransaction n s = .next t) :
    t.turns = s.turns ∧ t.commands = s.commands := by
  rcases writeAnswers_cases s with hw | ⟨took, fx, rest, ho⟩ | ⟨e, took, rest, he⟩
  · cases (writeTransaction_waits n hw).symm.trans h; exact ⟨rfl, rfl⟩
  · cases (writeTransaction_ok ho).symm.trans h; exact ⟨rfl, rfl⟩
  · cases (writeTransaction_err he).symm.trans h; exact ⟨rfl, rfl⟩

/-- What a command can do to memory, by its kind and by PHASE. -/
theorem exec_cases {i : Instr} {s t : State} (h : exec i s = .next t) :
    (t.mem = s.mem ∧ t.turns = s.turns ∧ t.commands = s.commands ∧ (updateOf i = none ∨ s.phase = .idle)) ∨
    (s.phase = .read ∧ (∃ u, updateOf i = some u) ∧ readTransaction s = .next t) ∨
    (s.phase = .write ∧ ∃ op reg bits mask, updateOf i = some (op, reg, bits, mask) ∧
      writeTransaction (writtenByte op s.cur s.bits s.mask) s = .next t) := by
  rcases hu : updateOf i with _ | ⟨op, reg, bits, mask⟩
  · obtain ⟨hm, ht, hc⟩ := exec_pure_frame hu h
    exact .inl ⟨hm, ht, hc, .inl rfl⟩
  rcases phase_cases s with hp | hp | hp
  · cases (exec_update hp hu).symm.trans h
    exact .inl ⟨rfl, rfl, rfl, .inr hp⟩
  · exact .inr (.inl ⟨hp, ⟨_, rfl⟩, (exec_update_read hp hu).symm.trans h⟩)
  · exact .inr (.inr ⟨hp, op, reg, bits, mask, rfl, (exec_update_write hp hu).symm.trans h⟩)

/-- Settles O49, by the command's kind and by PHASE. -/
theorem onlyTheWriteStoresAndOnlyAtReg : Obligations.OnlyTheWriteStoresAndOnlyAtReg := by
  intro i s t h
  rcases exec_cases h with ⟨hm, ht, hc, hk⟩ | ⟨hp, ⟨u, hu⟩, hr⟩ | ⟨hp, op', reg', bits', mask', hu, hw⟩
  · refine ⟨fun _ a => by rw [hm], fun _ a _ => by rw [hm],
      fun hp a _ => ⟨fun _ => by rw [hm], fun op reg bits mask fx rest hu _ _ => ?_⟩, ht, hc⟩
    rcases hk with hn | hidle
    · cases hn.symm.trans hu
    · cases hidle.symm.trans hp
  · refine ⟨?_, fun _ a ha => read_mem_readTransaction hr ha, fun hp' => (nomatch hp.symm.trans hp'),
      readTransaction_frame hr⟩
    rintro (hn | hidle)
    · cases hn.symm.trans hu
    · cases hp.symm.trans hidle
  · refine ⟨?_, fun hp' => (nomatch hp.symm.trans hp'), fun _ a ha => ⟨read_mem_writeTransaction hw ha, ?_⟩,
      writeTransaction_frame hw⟩
    · rintro (hn | hidle)
      · cases hn.symm.trans hu
      · cases hp.symm.trans hidle
    · rintro op reg bits mask fx rest hu' ho rfl
      cases hu.symm.trans hu'
      cases (writeTransaction_ok ho).symm.trans hw
      exact Memory.read_writes_takes _ (ha _ _ ho)

/-! ### STORAGE_REGISTER -/

/-- Settles O52, by the phase of the step. -/
theorem storageRegisterReadsBackTheLastWrite : Obligations.StorageRegisterReadsBackTheLastWrite := by
  intro a s t hstorage hb hstep
  have h : blockStep (afterTurn s) = .next t := (step_of_blockMoves hb).symm.trans hstep
  obtain ⟨hread, hwrite⟩ := hstorage hb
  refine ⟨fun hp hreg => ?_, fun hp hreg took fx was hw => ?_, fun hreg => ?_⟩
  · rcases blockStep_read_next (s := afterTurn s) hp h with ⟨-, rfl⟩ | ⟨b, fx, rest, hok, rfl⟩ | ⟨e, fx, rest, he, rfl⟩
    · exact ⟨rfl, fun hw => nomatch hp.symm.trans hw⟩
    · rcases hok with hok | ⟨hok, rfl⟩
      · exact absurd rfl (((hread hp _ _ hok).2 hreg).2 [b] fx)
      · obtain rfl : fx = [] := ((hread hp _ _ hok).2 hreg).1
        exact ⟨rfl, fun _ => congrArg (heldByte s.mem) hreg⟩
    · obtain rfl : fx = [] := ((hread hp _ _ he).2 hreg).1
      exact ⟨rfl, nofun⟩
  · obtain ⟨hfx, htook⟩ := hwrite hp _ _ hw
    cases (blockStep_write_ok (s := afterTurn s) hp hw).symm.trans h
    cases took with
    | false => exact absurd rfl (htook hreg fx)
    | true =>
      subst hreg
      exact Memory.read_writes_takes _ hfx
  · rcases phase_cases s with hp | hp | hp
    · rcases blockStep_idle_next (s := afterTurn s) hp h with
        ⟨-, rfl⟩ | ⟨w, ws, r, -, -, ht⟩ | ⟨w, ws, i, op, reg, bits, mask, -, -, -, rfl⟩
      · rfl
      · rw [ht]; rfl
      · rfl
    · exact read_mem_readTransaction (s := afterTurn s) ((blockStep_read (s := afterTurn s) hp).symm.trans h)
        (fun r rest hr => (hread hp r rest hr).1)
    · exact read_mem_writeTransaction (s := afterTurn s) ((blockStep_write (s := afterTurn s) hp).symm.trans h)
        (fun w rest hw => (hwrite hp w rest hw).1) (Ne.symm hreg)

/-! ### Several blocks -/

/-- The system's step is the step of the block whose move it is. -/
theorem System.step_next {y : System} {k : Nat} {ks : List Nat} {s t : State} (ho : y.order = k :: ks)
    (hk : y.blocks[k]? = some s) (h : Machine.step { s with mem := y.mem } = .next t) :
    y.step = { blocks := y.blocks.set k t, mem := t.mem, order := ks
               port := y.port ++ (newTransactions s t).map (fun x => (k, x)) } := by
  simp only [System.step, ho, hk, h]

theorem mem_trace_of_mem_newTransactions {s t : State} {x : Transaction} (h : x ∈ newTransactions s t) : x ∈ t.trace :=
  List.mem_of_mem_drop h

/-- Settles O51, field by field of the system after the move. -/
theorem instancesShareOnlyRemoteRegisters : Obligations.InstancesShareOnlyRemoteRegisters := by
  intro y k ks s t ho hk h
  have hlen : k < y.blocks.length := (List.getElem?_eq_some_iff.1 hk).1
  rw [System.step_next ho hk h]
  refine ⟨rfl, List.getElem?_set_self hlen, fun n hn => List.getElem?_set_ne hn.symm, ⟨_, rfl, ?_⟩, rfl⟩
  rw [List.forall_mem_map]
  exact fun x hx => ⟨rfl, mem_trace_of_mem_newTransactions hx⟩

end Sys2Proof.Machine

/-! SUPPORT. A bit-update command under EXCLUSIVE_ACCESS and STORAGE_REGISTER for its register, other actors moving elsewhere
between its steps (43_bit_update.md section 6). -/

namespace Sys2Proof.Machine

/-! ### The byte held -/

theorem heldByte_congr {m m' : Memory} {a : Byte} (h : m.read a = m'.read a) : heldByte m a = heldByte m' a := by
  rw [heldByte, heldByte, h]

theorem heldByte_of_read {m : Memory} {a b : Byte} (h : m.read a = some b) : heldByte m a = b := by
  rw [heldByte, h, Option.getD_some]

theorem heldByte_writes_other (m : Memory) {a : Byte} {ps : List (Byte × Byte)} (h : ∀ p ∈ ps, p.1 ≠ a) :
    heldByte (m.writes ps) a = heldByte m a :=
  heldByte_congr (Memory.read_writes_other m h)

/-- Both formulas set and clear bits whatever they were, so a second time changes nothing. -/
theorem writtenByte_writtenByte (op : UpdateOp) (c bits mask : Byte) :
    writtenByte op (writtenByte op c bits mask) bits mask = writtenByte op c bits mask := by
  have hset (n : Byte) : ((c &&& n ||| bits) &&& n) ||| bits = c &&& n ||| bits := by
    ext i hi
    simp only [BitVec.getElem_or, BitVec.getElem_and]
    cases n[i] <;> cases bits[i] <;> simp
  cases op with
  | set => exact hset _
  | setDefault => exact hset _
  | clear => rw [writtenByte, writtenByte, BitVec.and_assoc, BitVec.and_self]

/-! ### The two premises along the gaps of a run -/

/-- The premise for a run is the premise for what is left of it. -/
theorem StorageRegister.after_run {a : Byte} {m n : Nat} {s t : State} (h : StorageRegister a (m + n) s)
    (hrun : run m s = .next t) : StorageRegister a n t :=
  fun k u hk hu => h (m + k) u (Nat.add_lt_add_left hk m) ((run_add k hrun).trans hu)

/-- The block has a turn after each of these gaps, and along them EXCLUSIVE_ACCESS and STORAGE_REGISTER hold for `a`. -/
structure StoresAlong (a : Byte) (gaps : List (List (Byte × Byte))) (s : State) : Prop where
  turns : s.turns = blockAfterEach gaps
  exclusive : ExclusiveAccess a s.turns
  storage : StorageRegister a s.turns.length s

section

variable {a : Byte} {ps : List (Byte × Byte)} {gaps : List (List (Byte × Byte))} {s t : State}
  (h : StoresAlong a (ps :: gaps) s)

include h

theorem StoresAlong.turns_cons : s.turns = others ps ++ .block :: blockAfterEach gaps := by
  simp [h.turns, blockAfterEach]

/-- Once the other actors of the gap have moved, the block is to move. -/
theorem StoresAlong.run_others :
    run ps.length s = .next { s with turns := .block :: blockAfterEach gaps, mem := s.mem.writes ps } :=
  Machine.run_others ps s _ 0 h.turns_cons

/-- The other actors of the gap write elsewhere. -/
theorem StoresAlong.elsewhere : ∀ p ∈ ps, p.1 ≠ a := by
  rintro p hp rfl
  refine h.exclusive p.2 ?_
  rw [h.turns_cons]
  exact List.mem_append_left _ (List.mem_map.2 ⟨p, hp, rfl⟩)

/-- At the block's step the premise holds. -/
theorem StoresAlong.storageAt : StorageAt a { s with turns := .block :: blockAfterEach gaps, mem := s.mem.writes ps } :=
  h.storage ps.length _ (by simp [h.turns_cons, others]) h.run_others

/-- A read of the register is answered as held, and changes nothing. -/
theorem StoresAlong.read_answer {r : ReadAnswer} {rest : List ReadAnswer} (hp : s.phase = .read) (hreg : s.reg = a)
    (hr : s.readAnswers = r :: rest) : r.effects = [] ∧ ∀ bs fx, r ≠ .bytes bs fx :=
  ((h.storageAt (.inr ⟨_, rfl⟩)).1 hp r rest hr).2 hreg

/-- A write of the register answered `Ok` is taken, and nothing else is left there. -/
theorem StoresAlong.write_answer {took : Bool} {fx : Effects} {rest : List WriteAnswer} (hp : s.phase = .write)
    (hreg : s.reg = a) (hw : s.writeAnswers = .ok took fx :: rest) : took = true ∧ ∀ p ∈ fx, p.1 ≠ a := by
  obtain ⟨hfx, htook⟩ := (h.storageAt (.inr ⟨_, rfl⟩)).2 hp _ rest hw
  cases took with
  | true => exact ⟨rfl, hfx⟩
  | false => exact absurd rfl (htook hreg fx)

/-- The block's step after a gap leaves the premises for the gaps that follow. -/
theorem StoresAlong.next (hstep : blockStep (afterGap ps gaps s) = .next t) :
    StoresAlong a gaps t ∧ run s.turns.length s = run t.turns.length t := by
  have hturns : t.turns = blockAfterEach gaps := blockStep_turns hstep
  have hrun : run (ps.length + 1) s = .next t :=
    (run_add 1 h.run_others).trans ((run_one _).trans ((step_block rfl).trans hstep))
  have hlength : s.turns.length = (ps.length + 1) + t.turns.length := by
    simp [h.turns_cons, hturns, others]; omega
  refine ⟨⟨hturns, fun b hb => h.exclusive b ?_, ?_⟩, ?_⟩
  · rw [h.turns_cons, ← hturns]
    exact List.mem_append_right _ (List.mem_cons_of_mem _ hb)
  · exact StorageRegister.after_run (hlength ▸ h.storage) hrun
  · rw [hlength, run_add _ hrun]

end

/-! ### One command -/

section

variable {op : UpdateOp} {reg bits mask : Byte} {ws : List Word} {rs : List ReadAnswer} {was : List WriteAnswer} {s : State}

/-- From `s` to `t` one command has updated the byte held at `reg` and answered OK; `ws`, `rs` and `was` are left for later. -/
structure UpdatedOnce (op : UpdateOp) (reg bits mask : Byte) (ws : List Word) (rs : List ReadAnswer) (was : List WriteAnswer)
    (s t : State) : Prop where
  phase : t.phase = .idle
  commands : t.commands = ws
  readAnswers : t.readAnswers = rs
  writeAnswers : t.writeAnswers = was
  held : t.mem.read reg = some (writtenByte op (heldByte s.mem reg) bits mask)
  trace : t.trace = s.trace ++ [.readBytes reg 1 (.ok (heldByte s.mem reg)),
    .writeBytes reg [writtenByte op (heldByte s.mem reg) bits mask] .ok]
  responses : t.responses = s.responses ++ [⟨0x00000000#32, .none⟩]

/-- A bit-update command under the premises, both transactions answered `Ok`: it reads the byte held when it began, and its f of
that byte is held when it ends. -/
theorem run_update_stored {i : Instr} {before between after : List (Byte × Byte)} {gaps : List (List (Byte × Byte))}
    {a : ReadAnswer} {c : Byte} {fx gx : Effects} {took : Bool} (hu : updateOf i = some (op, reg, bits, mask))
    (h : StoresAlong reg (before :: between :: after :: gaps) s) (hp : s.phase = .idle) (hc : s.commands = encode i :: ws)
    (hr : s.readAnswers = a :: rs) (ha : a = .bytes [c] fx ∨ a = .held fx) (hw : s.writeAnswers = .ok took gx :: was) :
    ∃ t, run s.turns.length s = run t.turns.length t ∧ StoresAlong reg gaps t ∧
      UpdatedOnce op reg bits mask ws rs was s t := by
  obtain ⟨h1, hrun1⟩ := h.next (blockStep_accepts_update hp hu hc)
  obtain ⟨hfx, hbytes⟩ := h1.read_answer rfl rfl hr
  obtain rfl : a = .held [] := by
    rcases ha with rfl | rfl
    · exact absurd rfl (hbytes [c] fx)
    · exact congrArg ReadAnswer.held hfx
  have hheld : heldByte ((s.mem.writes before).writes between) reg = heldByte s.mem reg := by
    rw [heldByte_writes_other _ h1.elsewhere, heldByte_writes_other _ h.elsewhere]
  obtain ⟨h2, hrun2⟩ := h1.next (blockStep_read_ok rfl (.inr ⟨hr, hheld.symm⟩))
  obtain ⟨rfl, hgx⟩ := h2.write_answer rfl rfl hw
  obtain ⟨h3, hrun3⟩ := h2.next (blockStep_write_ok rfl hw)
  exact ⟨_, hrun1.trans (hrun2.trans hrun3), h3, rfl, rfl, rfl, rfl, Memory.read_writes_takes _ hgx,
    List.append_assoc _ _ _, rfl⟩

end

/-- Settles O37: the second command reads what the first one wrote, and its f leaves that byte as it is. -/
theorem sameUpdateTwiceIsOnce : Obligations.SameUpdateTwiceIsOnce := by
  intro i op reg bits mask s gaps ws a c fx a' c' fx' rs took gx took' gx' was hu hp hc hlen hturns hexclusive hstorage hr ha
    ha' hw
  match gaps, hlen with
  | [g1, g2, g3, g4, g5, g6], _ =>
    obtain ⟨t, hrun, ht, hfirst⟩ := run_update_stored hu ⟨hturns, hexclusive, hstorage⟩ hp hc hr ha hw
    obtain ⟨u, hrun', hu', hsecond⟩ :=
      run_update_stored hu ht hfirst.phase hfirst.commands hfirst.readAnswers ha' hfirst.writeAnswers
    have hend : u.turns = [] := hu'.turns
    have hheld := hsecond.held
    have htrace := hsecond.trace
    rw [heldByte_of_read hfirst.held, writtenByte_writtenByte] at hheld htrace
    refine ⟨u, ?_, hsecond.phase, hheld, ?_, ?_⟩
    · rw [hrun, hrun', hend]
      rfl
    · simp [htrace, hfirst.trace]
    · simp [hsecond.responses, hfirst.responses]

end Sys2Proof.Machine

/-! SUPPORT. Two blocks race on one register (R145; 60_exceptions.md section 7): each is at a stage of its command, a race of
two stages over one memory says what the system does, and an invariant of the race says what the register can hold. -/

namespace Sys2Proof.Machine

/-! ### The stages of one block -/

/-- A block's command, taken apart, and the responses it had sent before. -/
structure Job where
  instr : Instr
  op : UpdateOp
  reg : Byte
  bits : Byte
  mask : Byte
  sent : List Response

/-- The command is the bit-update its parts say. -/
def Job.Fits (j : Job) : Prop := updateOf j.instr = some (j.op, j.reg, j.bits, j.mask)

/-- The f of the command (R107). -/
def Job.f (j : Job) (c : Byte) : Byte := writtenByte j.op c j.bits j.mask

/-- How far a block has come with its command. -/
inductive Stage where
  | waiting
  | reading
  | writing (c : Byte)
  | done

/-- A move takes the block to its next stage; a read finds `held`. -/
def Stage.next (held : Byte) : Stage → Stage
  | .waiting => .reading
  | .reading => .writing held
  | .writing _ => .done
  | .done => .done

/-- A move leaves memory alone, but that a write stores its f of the byte read. -/
def Stage.store (f : Byte → Byte) (reg : Byte) (m : Memory) : Stage → Memory
  | .writing c => m.write reg (f c)
  | _ => m

/-- The moves made, up to the three a command takes. -/
def Stage.rank : Stage → Nat
  | .waiting => 0
  | .reading => 1
  | .writing _ => 2
  | .done => 3

theorem Stage.rank_next (held : Byte) (g : Stage) : (g.next held).rank = min 3 (g.rank + 1) := by
  cases g <;> rfl

theorem Stage.rank_le (g : Stage) : g.rank ≤ 3 := by
  cases g <;> simp [Stage.rank]

theorem Stage.eq_done_of_rank {g : Stage} (h : g.rank = 3) : g = .done := by
  cases g with
  | done => rfl
  | _ => cases h

/-- The block has accepted the command `j` and is in this PHASE of it. -/
structure InProgress (j : Job) (phase : Phase) (reads : List ReadAnswer) (s : State) : Prop where
  phase : s.phase = phase
  turns : s.turns = []
  commands : s.commands = []
  readAnswers : s.readAnswers = reads
  writeAnswers : s.writeAnswers = [.ok true []]
  op : s.op = j.op
  reg : s.reg = j.reg
  bits : s.bits = j.bits
  mask : s.mask = j.mask
  responses : s.responses = j.sent

/-- The block has answered the command `j` with OK, and nothing more is presented. -/
structure Finished (j : Job) (s : State) : Prop where
  phase : s.phase = .idle
  turns : s.turns = []
  commands : s.commands = []
  responses : s.responses = j.sent ++ [⟨0x00000000#32, .none⟩]

/-- The block is at this stage of the command `j`. -/
def AtStage (j : Job) : Stage → State → Prop
  | .waiting, s => Ready s j.instr ∧ s.responses = j.sent
  | .reading, s => InProgress j .read [.held []] s
  | .writing c, s => InProgress j .write [] s ∧ s.cur = c
  | .done, s => Finished j s

/-- A move of the block on the shared memory `m`. -/
theorem AtStage.step {j : Job} (hj : j.Fits) {g : Stage} {s : State} (h : AtStage j g s) (m : Memory) :
    ∃ t, step { s with mem := m } = .next t ∧ AtStage j (g.next (heldByte m j.reg)) t ∧ t.mem = g.store j.f j.reg m := by
  cases g with
  | waiting =>
    obtain ⟨hready, hsent⟩ := h
    refine ⟨_, step_accepts (s := { s with mem := m }) hready.turns hready.phase (wf_of_updateOf hj) hj hready.commands, ?_,
      rfl⟩
    exact ⟨rfl, hready.turns, rfl, hready.readAnswers, hready.writeAnswers, rfl, rfl, rfl, rfl, hsent⟩
  | reading =>
    have hread := blockStep_read_ok (s := { s with mem := m }) h.phase (.inr ⟨h.readAnswers, rfl⟩)
    refine ⟨_, (step_no_turn (s := { s with mem := m }) h.turns).trans hread, ⟨?_, congrArg (heldByte m) h.reg⟩, rfl⟩
    exact { h with phase := rfl, readAnswers := rfl }
  | writing c =>
    obtain ⟨hprogress, hcur⟩ := h
    have hnew : writtenByte s.op s.cur s.bits s.mask = j.f c := by
      rw [hprogress.op, hprogress.bits, hprogress.mask, hcur, Job.f]
    refine ⟨_, step_write_ok (s := { s with mem := m }) hprogress.turns hprogress.phase hprogress.writeAnswers, ?_, ?_⟩
    · exact ⟨rfl, hprogress.turns, hprogress.commands, by rw [← hprogress.responses]⟩
    · simp only [hnew, hprogress.reg]
      rfl
  | done =>
    refine ⟨_, (step_no_turn (s := { s with mem := m }) h.turns).trans
      (blockStep_waits (s := { s with mem := m }) h.phase h.commands), ?_, rfl⟩
    exact { h with }

/-! ### The race -/

/-- Two blocks at their stages, and the memory they share. -/
structure Race where
  a : Stage
  b : Stage
  mem : Memory

/-- A move of block `k`: 0 moves `a`, 1 moves `b`, and there is no other. -/
def Race.move (f g : Byte → Byte) (reg : Byte) (r : Race) : Nat → Race
  | 0 => { r with a := r.a.next (heldByte r.mem reg), mem := r.a.store f reg r.mem }
  | 1 => { r with b := r.b.next (heldByte r.mem reg), mem := r.b.store g reg r.mem }
  | _ => r

/-- The moves made in an order bring each block on by as many stages, up to the last. -/
theorem rank_foldl_move (f g : Byte → Byte) (reg : Byte) (order : List Nat) (r : Race) :
    (order.foldl (Race.move f g reg) r).a.rank = min 3 (r.a.rank + order.count 0) ∧
    (order.foldl (Race.move f g reg) r).b.rank = min 3 (r.b.rank + order.count 1) := by
  induction order generalizing r with
  | nil => simp [Stage.rank_le]
  | cons k ks ih =>
    obtain ⟨iha, ihb⟩ := ih (r.move f g reg k)
    rw [List.foldl_cons, iha, ihb]
    match k with
    | 0 => simp [Race.move, Stage.rank_next]; omega
    | 1 => simp [Race.move, Stage.rank_next]; omega
    | k + 2 => simp [Race.move]

/-- The system's two blocks are where the race says. -/
structure Runs (j j' : Job) (y : System) (r : Race) : Prop where
  blocks : ∃ A B, y.blocks = [A, B] ∧ AtStage j r.a A ∧ AtStage j' r.b B
  mem : y.mem = r.mem

section

variable {j j' : Job} (hj : j.Fits) (hj' : j'.Fits) (hreg : j'.reg = j.reg)

include hj hj' hreg

/-- The system moves as the race does. -/
theorem Runs.step {y : System} {r : Race} {k : Nat} {ks : List Nat} (h : Runs j j' y r) (ho : y.order = k :: ks) :
    Runs j j' y.step (r.move j.f j'.f j.reg k) ∧ y.step.order = ks := by
  obtain ⟨A, B, hblocks, hA, hB⟩ := h.blocks
  match k with
  | 0 =>
    obtain ⟨t, hstep, ht, hm⟩ := hA.step hj y.mem
    rw [h.mem] at ht hm
    rw [System.step_next ho (by rw [hblocks]; rfl) hstep]
    exact ⟨⟨⟨t, B, by rw [hblocks]; rfl, ht, hB⟩, hm⟩, rfl⟩
  | 1 =>
    obtain ⟨t, hstep, ht, hm⟩ := hB.step hj' y.mem
    rw [h.mem, hreg] at ht hm
    rw [System.step_next ho (by rw [hblocks]; rfl) hstep]
    exact ⟨⟨⟨A, t, by rw [hblocks]; rfl, hA, ht⟩, hm⟩, rfl⟩
  | k + 2 =>
    have hnone : y.blocks[k + 2]? = none := by rw [hblocks]; rfl
    have hstep : y.step = { y with order := ks } := by simp only [System.step, ho, hnone]
    rw [hstep]
    exact ⟨⟨h.blocks, h.mem⟩, rfl⟩

theorem Runs.run {y : System} {r : Race} (h : Runs j j' y r) :
    Runs j j' (System.run y.order.length y) (y.order.foldl (Race.move j.f j'.f j.reg) r) := by
  generalize ho : y.order = order
  induction order generalizing y r with
  | nil => exact h
  | cons k ks ih =>
    obtain ⟨hnext, hks⟩ := h.step hj hj' hreg ho
    exact ih hnext hks

end

/-! ### What the register can hold -/

/-- The register began with `c`, and a block at `stage` applies `f`: another block, if it is not done, sees `c`, or the
update of this one once it is done. -/
def Seen (f : Byte → Byte) (c : Byte) (stage : Stage) (x : Byte) : Prop := x = c ∨ (stage = .done ∧ x = f c)

/-- An update once seen stays to be seen. -/
theorem Seen.next {f : Byte → Byte} {c x : Byte} {stage : Stage} (h : Seen f c stage x) (held : Byte) :
    Seen f c (stage.next held) x := by
  rcases h with h | ⟨rfl, h⟩
  · exact .inl h
  · exact .inr ⟨rfl, h⟩

theorem Seen.eq_of_not_done {f : Byte → Byte} {c x : Byte} {stage : Stage} (h : Seen f c stage x)
    (hn : stage ≠ .done) : x = c :=
  h.resolve_right (fun ⟨hd, _⟩ => hn hd)

/-- The bytes that can stand when both are done: both updates in one order or the other, or one of them alone. -/
def RaceOutcome (f g : Byte → Byte) (reg c : Byte) (m : Memory) : Prop :=
  m.read reg = some (g (f c)) ∨ m.read reg = some (f (g c)) ∨ m.read reg = some (f c) ∨ m.read reg = some (g c)

theorem RaceOutcome.symm {f g : Byte → Byte} {reg c : Byte} {m : Memory} (h : RaceOutcome f g reg c m) : RaceOutcome g f reg c m := by
  rcases h with h | h | h | h
  · exact .inr (.inl h)
  · exact .inl h
  · exact .inr (.inr (.inr h))
  · exact .inr (.inr (.inl h))

/-- The invariant of the race: what a block that is not done finds in the register, and what it has read from it, is what it
can see of the other; and when both are done one of the outcomes stands. -/
structure Race.Bounded (f g : Byte → Byte) (reg c : Byte) (a b : Stage) (m : Memory) : Prop where
  heldA : a ≠ .done → Seen g c b (heldByte m reg)
  heldB : b ≠ .done → Seen f c a (heldByte m reg)
  readA : ∀ x, a = .writing x → Seen g c b x
  readB : ∀ x, b = .writing x → Seen f c a x
  both : a = .done → b = .done → RaceOutcome f g reg c m

section

variable {f g : Byte → Byte} {reg c : Byte} {a b : Stage} {m : Memory}

theorem Race.Bounded.symm (h : Race.Bounded f g reg c a b m) : Race.Bounded g f reg c b a m :=
  ⟨h.heldB, h.heldA, h.readB, h.readA, fun hb ha => (h.both ha hb).symm⟩

/-- A move of one of the two keeps the bounds. -/
theorem Race.Bounded.next (h : Race.Bounded f g reg c a b m) :
    Race.Bounded f g reg c (a.next (heldByte m reg)) b (a.store f reg m) := by
  have hreadB (x : Byte) (hx : b = .writing x) := (h.readB x hx).next (heldByte m reg)
  cases a with
  | waiting =>
    exact {
      heldA := fun _ => h.heldA nofun
      heldB := fun hb => (h.heldB hb).next _
      readA := nofun
      readB := hreadB
      both := nofun }
  | reading =>
    exact {
      heldA := fun _ => h.heldA nofun
      heldB := fun hb => (h.heldB hb).next _
      readA := fun x hx => by cases hx; exact h.heldA nofun
      readB := hreadB
      both := nofun }
  | writing x =>
    have hstored : (m.write reg (f x)).read reg = some (f x) := Memory.read_write_same m reg (f x)
    have hx : Seen g c b x := h.readA x rfl
    exact {
      heldA := fun hn => absurd rfl hn
      heldB := fun hb => .inr ⟨rfl, by rw [Stage.store, heldByte_of_read hstored, hx.eq_of_not_done hb]⟩
      readA := nofun
      readB := hreadB
      both := fun _ _ => by
        rcases hx with rfl | ⟨-, rfl⟩
        · exact .inr (.inr (.inl hstored))
        · exact .inr (.inl hstored) }
  | done => exact h

theorem Race.Bounded.foldl_move {r : Race} (h : Race.Bounded f g reg c r.a r.b r.mem) (order : List Nat) :
    Race.Bounded f g reg c (order.foldl (Race.move f g reg) r).a (order.foldl (Race.move f g reg) r).b
      (order.foldl (Race.move f g reg) r).mem := by
  induction order generalizing r with
  | nil => exact h
  | cons k ks ih =>
    refine ih (r := r.move f g reg k) ?_
    match k with
    | 0 => exact h.next
    | 1 => exact h.symm.next.symm
    | k + 2 => exact h

end

/-- Before either has moved each sees the byte the register began with. -/
theorem Race.bounded_start (f g : Byte → Byte) (reg : Byte) (m : Memory) :
    Race.Bounded f g reg (heldByte m reg) .waiting .waiting m :=
  ⟨fun _ => .inl rfl, fun _ => .inl rfl, nofun, nofun, nofun⟩

section

variable {j j' : Job} (hj : j.Fits) (hj' : j'.Fits) (hreg : j'.reg = j.reg) {y : System}
  (hstart : Runs j j' y ⟨.waiting, .waiting, y.mem⟩)

include hj hj' hreg hstart

/-- With three moves each, in whatever order, both answer OK and one of the outcomes stands. -/
theorem Runs.outcome (h0 : 3 ≤ y.order.count 0) (h1 : 3 ≤ y.order.count 1) :
    ∃ A B, (System.run y.order.length y).blocks = [A, B] ∧ Finished j A ∧ Finished j' B ∧
      RaceOutcome j.f j'.f j.reg (heldByte y.mem j.reg) (System.run y.order.length y).mem := by
  have hend := hstart.run hj hj' hreg
  have hbounded := (Race.bounded_start j.f j'.f j.reg y.mem).foldl_move (r := ⟨.waiting, .waiting, y.mem⟩) y.order
  obtain ⟨hrankA, hrankB⟩ := rank_foldl_move j.f j'.f j.reg y.order ⟨.waiting, .waiting, y.mem⟩
  have hdoneA := Stage.eq_done_of_rank (hrankA.trans (by omega))
  have hdoneB := Stage.eq_done_of_rank (hrankB.trans (by omega))
  obtain ⟨A, B, hblocks, hA, hB⟩ := hend.blocks
  rw [hdoneA] at hA
  rw [hdoneB] at hB
  rw [hend.mem]
  exact ⟨A, B, hblocks, hA, hB, hbounded.both hdoneA hdoneB⟩

/-- Both read before either writes, and the second write stands. -/
theorem Runs.lost_update (ho : y.order = [0, 1, 0, 1, 0, 1]) :
    (System.run 6 y).mem.read j.reg = some (j'.f (heldByte y.mem j.reg)) := by
  have hend := hstart.run hj hj' hreg
  rw [ho] at hend
  exact (congrArg (Memory.read · j.reg) hend.mem).trans (Memory.read_write_same _ _ _)

end

/-- Settles O40: the system is a race of two stages, and the invariant of the race bounds what the register holds; the order of
the lost update is followed move by move. -/
theorem twoInstancesCanLoseAnUpdate : Obligations.TwoInstancesCanLoseAnUpdate := by
  intro y A B i j op op' reg bits bits' mask mask' hi hj hblocks hA hB
  have hfits : Job.Fits ⟨i, op, reg, bits, mask, A.responses⟩ := hi
  have hfits' : Job.Fits ⟨j, op', reg, bits', mask', B.responses⟩ := hj
  have hstart : Runs ⟨i, op, reg, bits, mask, A.responses⟩ ⟨j, op', reg, bits', mask', B.responses⟩ y
      ⟨.waiting, .waiting, y.mem⟩ := ⟨⟨A, B, hblocks, ⟨hA, rfl⟩, ⟨hB, rfl⟩⟩, rfl⟩
  refine ⟨fun h0 h1 => ?_, Runs.lost_update hfits hfits' rfl hstart⟩
  obtain ⟨A', B', hblocks', hA', hB', houtcome⟩ := Runs.outcome hfits hfits' rfl hstart h0 h1
  exact ⟨A', B', hblocks', hA'.responses, hB'.responses, houtcome⟩

end Sys2Proof.Machine
